-- ==== Sys2Proof/Word.lean ====
section
/-! DEFINITION. Sys2Proof/Word.lean: the bit-vector types of the machine and the index types of its operand fields. -/

namespace Sys2Proof

/-- An 8-bit value: a general register, a timer, a byte of memory, an immediate `nn` (R8, R21, R27, R28, R30). -/
abbrev Byte := BitVec 8

/-- A 16-bit value: the opcode, `pc`, `I`, a stack slot (R8, R23, R24, R25, R32). -/
abbrev Word := BitVec 16

/-- The 12-bit byte-address immediate `nnn` (R71, R73). -/
abbrev Addr12 := BitVec 12

/-- The index of a general register `V[0]`..`V[15]`: the field `x` or `y` (R21, R71).
All sixteen values are legal and none is reserved. -/
abbrev Reg := Fin 16

/-- The row count `n` of `DXYN`, 0..15 (R71, R73). -/
abbrev Height := Fin 16

/-- The flag register `V[0xF]` (R22). -/
def regF : Reg := 15

/-- The register `V[0]`, the implicit offset of `BNNN` (R21, R114). -/
def regZero : Reg := 0

end Sys2Proof
end

