-- ==== Sys2Proof/Syntax.lean ====
section
/-! DEFINITION. Sys2Proof/Syntax.lean: the instructions, one constructor per row of R75 and of spec/opcode_table.json, and the six formats of R72.
The document names an instruction by its pattern; each constructor's docstring gives it, and the constructor's name follows the assembler syntax of R82. -/

namespace Sys2Proof

/-- The six instruction formats (R72). -/
inductive Format where
  /-- no operand: `00E0`, `00EE` -/
  | Z
  /-- an address `nnn` -/
  | A
  /-- a register `x` and an immediate `nn` -/
  | I
  /-- two registers `x`, `y` -/
  | R
  /-- two registers `x`, `y` and a height `n` -/
  | D
  /-- one register `x` -/
  | X
deriving DecidableEq, Repr

/-- The 34 instructions (R75). An operand's type is the range of its field (R71), so every term is an encodable instruction. -/
inductive Instr where
  /-- `00E0`, CLS: clear display (R171) -/
  | cls
  /-- `00EE`, RET: return from subroutine (R111) -/
  | ret
  /-- `1NNN`, JP nnn: jump (R112) -/
  | jp (nnn : Addr12)
  /-- `2NNN`, CALL nnn: call subroutine (R113) -/
  | call (nnn : Addr12)
  /-- `3XNN`, SE Vx, nn: skip if register equals immediate (R115) -/
  | seImm (x : Reg) (nn : Byte)
  /-- `4XNN`, SNE Vx, nn: skip if register differs from immediate (R116) -/
  | sneImm (x : Reg) (nn : Byte)
  /-- `5XY0`, SE Vx, Vy: skip if registers equal (R117) -/
  | seReg (x y : Reg)
  /-- `6XNN`, LD Vx, nn: load immediate (R131) -/
  | ldImm (x : Reg) (nn : Byte)
  /-- `7XNN`, ADD Vx, nn: add immediate, no flag (R132) -/
  | addImm (x : Reg) (nn : Byte)
  /-- `8XY0`, LD Vx, Vy: copy register (R133) -/
  | ldReg (x y : Reg)
  /-- `8XY1`, OR Vx, Vy (R134) -/
  | orReg (x y : Reg)
  /-- `8XY2`, AND Vx, Vy (R135) -/
  | andReg (x y : Reg)
  /-- `8XY3`, XOR Vx, Vy (R136) -/
  | xorReg (x y : Reg)
  /-- `8XY4`, ADD Vx, Vy: add with carry out (R137) -/
  | addReg (x y : Reg)
  /-- `8XY5`, SUB Vx, Vy (R138) -/
  | subReg (x y : Reg)
  /-- `8XY6`, SHR Vx: shift right by one; `y` is carried and ignored (R139, R76) -/
  | shr (x y : Reg)
  /-- `8XY7`, SUBN Vx, Vy: reverse subtract (R140) -/
  | subnReg (x y : Reg)
  /-- `8XYE`, SHL Vx: shift left by one; `y` is carried and ignored (R141, R76) -/
  | shl (x y : Reg)
  /-- `9XY0`, SNE Vx, Vy: skip if registers differ (R118) -/
  | sneReg (x y : Reg)
  /-- `ANNN`, LD I, nnn: load index (R151) -/
  | ldI (nnn : Addr12)
  /-- `BNNN`, JP V0, nnn: jump with offset (R114) -/
  | jpV0 (nnn : Addr12)
  /-- `CXNN`, RND Vx, nn: masked random byte (R142) -/
  | rnd (x : Reg) (nn : Byte)
  /-- `DXYN`, DRW Vx, Vy, n: draw sprite (R172) -/
  | drw (x y : Reg) (n : Height)
  /-- `EX9E`, SKP Vx: skip if key pressed (R181) -/
  | skp (x : Reg)
  /-- `EXA1`, SKNP Vx: skip if key not pressed (R182) -/
  | sknp (x : Reg)
  /-- `FX07`, LD Vx, DT: read delay timer (R184) -/
  | ldVxDT (x : Reg)
  /-- `FX0A`, LD Vx, K: wait for a key (R183) -/
  | ldVxK (x : Reg)
  /-- `FX15`, LD DT, Vx: set delay timer (R185) -/
  | ldDTVx (x : Reg)
  /-- `FX18`, LD ST, Vx: set sound timer (R186) -/
  | ldSTVx (x : Reg)
  /-- `FX1E`, ADD I, Vx: add register to index (R152) -/
  | addI (x : Reg)
  /-- `FX29`, LD F, Vx: point index at font glyph (R153) -/
  | ldF (x : Reg)
  /-- `FX33`, LD B, Vx: store binary-coded decimal (R154) -/
  | ldB (x : Reg)
  /-- `FX55`, LD [I], Vx: store registers `V[0]`..`V[x]` (R155) -/
  | storeRegs (x : Reg)
  /-- `FX65`, LD Vx, [I]: load registers `V[0]`..`V[x]` (R156) -/
  | loadRegs (x : Reg)
deriving DecidableEq, Repr

end Sys2Proof
end

