-- ==== Sys2Proof/WellFormed.lean ====
section
/-! DEFINITION. Sys2Proof/WellFormed.lean: which numbers may stand as an instruction's operands.
A term of Instr holds no operand outside its field (the operand types are the field ranges of R71).
What can be ill-formed is the operand list an assembler is given: plain numbers "that must fit the field" (R82).
That list is RawOperands, checked here per format (R72) against the ranges of R71. -/

namespace Sys2Proof

/-- The operands of one line of assembly as plain numbers (R82). A field the format does not use is not looked at (R71). -/
structure RawOperands where
  x   : Nat := 0
  y   : Nat := 0
  n   : Nat := 0
  nn  : Nat := 0
  nnn : Nat := 0
deriving DecidableEq, Repr

/-- Every operand the format uses fits its field (R71, R72, R82). -/
def RawOperands.wellFormed (f : Format) (o : RawOperands) : Bool :=
  match f with
  | .Z => true
  | .A => decide (o.nnn < 4096)
  | .I => decide (o.x < 16) && decide (o.nn < 256)
  | .R => decide (o.x < 16) && decide (o.y < 16)
  | .D => decide (o.x < 16) && decide (o.y < 16) && decide (o.n < 16)
  | .X => decide (o.x < 16)

end Sys2Proof
end

