-- ==== Sys2Proof/Decode.lean ====
section
/-! DEFINITION. Sys2Proof/Decode.lean: the opcode map of R75, the decoder of R70 to R80, total on any bytes, and the encoder of R84. -/

namespace Sys2Proof

/-- Why bytes are no instruction. -/
inductive DecodeError where
  /-- the word matches no row of R75 (R77, R78, R79) -/
  | unrecognized (opcode : Word)
  /-- fewer than the two bytes every instruction has (R70) -/
  | truncated
deriving DecidableEq, Repr

/-! ## The word and its fields -/

/-- The opcode from its two bytes, big-endian: `(high << 8) | low` (R54, R70). -/
def wordOfBytes (hi lo : Byte) : Word :=
  (hi.setWidth 16 <<< 8) ||| lo.setWidth 16

/-- The byte of a word that lies at the lower address: bits 15..8 (R54). -/
def highByte (w : Word) : Byte := (w >>> 8).setWidth 8

/-- The byte of a word that lies at the higher address: bits 7..0 (R54). -/
def lowByte (w : Word) : Byte := w.setWidth 8

/-- `op`, bits 15..12 (R71). -/
def fieldOp (w : Word) : Nat := w.toNat / 4096

/-- `x`, bits 11..8 (R71). -/
def fieldX (w : Word) : Reg := ⟨w.toNat / 256 % 16, Nat.mod_lt _ (by decide)⟩

/-- `y`, bits 7..4 (R71). -/
def fieldY (w : Word) : Reg := ⟨w.toNat / 16 % 16, Nat.mod_lt _ (by decide)⟩

/-- `n`, bits 3..0 (R71). -/
def fieldN (w : Word) : Height := ⟨w.toNat % 16, Nat.mod_lt _ (by decide)⟩

/-- `nn`, bits 7..0 (R71). -/
def fieldNN (w : Word) : Byte := w.setWidth 8

/-- `nnn`, bits 11..0 (R71). -/
def fieldNNN (w : Word) : Addr12 := w.setWidth 12

/-! ## The opcode table -/

/-- A row of R75: a word `w` is this instruction exactly when `w &&& mask = pattern` (the column `match`). -/
structure Row where
  mnemonic : String
  format   : Format
  pattern  : Word
  mask     : Word
deriving DecidableEq, Repr

/-- Rows 1 to 12 of R75. -/
def opcodeTable1 : List Row :=
  [ ⟨"00E0", .Z, 0x00E0#16, 0xFFFF#16⟩, ⟨"00EE", .Z, 0x00EE#16, 0xFFFF#16⟩, ⟨"1NNN", .A, 0x1000#16, 0xF000#16⟩,
    ⟨"2NNN", .A, 0x2000#16, 0xF000#16⟩, ⟨"3XNN", .I, 0x3000#16, 0xF000#16⟩, ⟨"4XNN", .I, 0x4000#16, 0xF000#16⟩,
    ⟨"5XY0", .R, 0x5000#16, 0xF00F#16⟩, ⟨"6XNN", .I, 0x6000#16, 0xF000#16⟩, ⟨"7XNN", .I, 0x7000#16, 0xF000#16⟩,
    ⟨"8XY0", .R, 0x8000#16, 0xF00F#16⟩, ⟨"8XY1", .R, 0x8001#16, 0xF00F#16⟩, ⟨"8XY2", .R, 0x8002#16, 0xF00F#16⟩ ]

/-- Rows 13 to 23 of R75. -/
def opcodeTable2 : List Row :=
  [ ⟨"8XY3", .R, 0x8003#16, 0xF00F#16⟩, ⟨"8XY4", .R, 0x8004#16, 0xF00F#16⟩, ⟨"8XY5", .R, 0x8005#16, 0xF00F#16⟩,
    ⟨"8XY6", .R, 0x8006#16, 0xF00F#16⟩, ⟨"8XY7", .R, 0x8007#16, 0xF00F#16⟩, ⟨"8XYE", .R, 0x800E#16, 0xF00F#16⟩,
    ⟨"9XY0", .R, 0x9000#16, 0xF00F#16⟩, ⟨"ANNN", .A, 0xA000#16, 0xF000#16⟩, ⟨"BNNN", .A, 0xB000#16, 0xF000#16⟩,
    ⟨"CXNN", .I, 0xC000#16, 0xF000#16⟩, ⟨"DXYN", .D, 0xD000#16, 0xF000#16⟩ ]

/-- Rows 24 to 34 of R75. -/
def opcodeTable3 : List Row :=
  [ ⟨"EX9E", .X, 0xE09E#16, 0xF0FF#16⟩, ⟨"EXA1", .X, 0xE0A1#16, 0xF0FF#16⟩, ⟨"FX07", .X, 0xF007#16, 0xF0FF#16⟩,
    ⟨"FX0A", .X, 0xF00A#16, 0xF0FF#16⟩, ⟨"FX15", .X, 0xF015#16, 0xF0FF#16⟩, ⟨"FX18", .X, 0xF018#16, 0xF0FF#16⟩,
    ⟨"FX1E", .X, 0xF01E#16, 0xF0FF#16⟩, ⟨"FX29", .X, 0xF029#16, 0xF0FF#16⟩, ⟨"FX33", .X, 0xF033#16, 0xF0FF#16⟩,
    ⟨"FX55", .X, 0xF055#16, 0xF0FF#16⟩, ⟨"FX65", .X, 0xF065#16, 0xF0FF#16⟩ ]

/-- The complete instruction list, 34 rows, in the document's table order (R75). -/
def opcodeTable : List Row := opcodeTable1 ++ opcodeTable2 ++ opcodeTable3

/-- The word lies on the row: `w & mask = match` (R75). -/
def Row.selects (r : Row) (w : Word) : Bool := (w &&& r.mask) == r.pattern

/-- The row of R75 an instruction stands for. -/
def rowOf (i : Instr) : Row :=
  match i with
  | .cls         => ⟨"00E0", .Z, 0x00E0#16, 0xFFFF#16⟩
  | .ret         => ⟨"00EE", .Z, 0x00EE#16, 0xFFFF#16⟩
  | .jp _        => ⟨"1NNN", .A, 0x1000#16, 0xF000#16⟩
  | .call _      => ⟨"2NNN", .A, 0x2000#16, 0xF000#16⟩
  | .seImm _ _   => ⟨"3XNN", .I, 0x3000#16, 0xF000#16⟩
  | .sneImm _ _  => ⟨"4XNN", .I, 0x4000#16, 0xF000#16⟩
  | .seReg _ _   => ⟨"5XY0", .R, 0x5000#16, 0xF00F#16⟩
  | .ldImm _ _   => ⟨"6XNN", .I, 0x6000#16, 0xF000#16⟩
  | .addImm _ _  => ⟨"7XNN", .I, 0x7000#16, 0xF000#16⟩
  | .ldReg _ _   => ⟨"8XY0", .R, 0x8000#16, 0xF00F#16⟩
  | .orReg _ _   => ⟨"8XY1", .R, 0x8001#16, 0xF00F#16⟩
  | .andReg _ _  => ⟨"8XY2", .R, 0x8002#16, 0xF00F#16⟩
  | .xorReg _ _  => ⟨"8XY3", .R, 0x8003#16, 0xF00F#16⟩
  | .addReg _ _  => ⟨"8XY4", .R, 0x8004#16, 0xF00F#16⟩
  | .subReg _ _  => ⟨"8XY5", .R, 0x8005#16, 0xF00F#16⟩
  | .shr _ _     => ⟨"8XY6", .R, 0x8006#16, 0xF00F#16⟩
  | .subnReg _ _ => ⟨"8XY7", .R, 0x8007#16, 0xF00F#16⟩
  | .shl _ _     => ⟨"8XYE", .R, 0x800E#16, 0xF00F#16⟩
  | .sneReg _ _  => ⟨"9XY0", .R, 0x9000#16, 0xF00F#16⟩
  | .ldI _       => ⟨"ANNN", .A, 0xA000#16, 0xF000#16⟩
  | .jpV0 _      => ⟨"BNNN", .A, 0xB000#16, 0xF000#16⟩
  | .rnd _ _     => ⟨"CXNN", .I, 0xC000#16, 0xF000#16⟩
  | .drw _ _ _   => ⟨"DXYN", .D, 0xD000#16, 0xF000#16⟩
  | .skp _       => ⟨"EX9E", .X, 0xE09E#16, 0xF0FF#16⟩
  | .sknp _      => ⟨"EXA1", .X, 0xE0A1#16, 0xF0FF#16⟩
  | .ldVxDT _    => ⟨"FX07", .X, 0xF007#16, 0xF0FF#16⟩
  | .ldVxK _     => ⟨"FX0A", .X, 0xF00A#16, 0xF0FF#16⟩
  | .ldDTVx _    => ⟨"FX15", .X, 0xF015#16, 0xF0FF#16⟩
  | .ldSTVx _    => ⟨"FX18", .X, 0xF018#16, 0xF0FF#16⟩
  | .addI _      => ⟨"FX1E", .X, 0xF01E#16, 0xF0FF#16⟩
  | .ldF _       => ⟨"FX29", .X, 0xF029#16, 0xF0FF#16⟩
  | .ldB _       => ⟨"FX33", .X, 0xF033#16, 0xF0FF#16⟩
  | .storeRegs _ => ⟨"FX55", .X, 0xF055#16, 0xF0FF#16⟩
  | .loadRegs _  => ⟨"FX65", .X, 0xF065#16, 0xF0FF#16⟩

/-! ## The decoder -/

/-- Family 8, keyed on `n` (R74). -/
def decodeFamily8 (w : Word) : Except DecodeError Instr :=
  match (fieldN w).val with
  | 0x0 => .ok (.ldReg (fieldX w) (fieldY w))
  | 0x1 => .ok (.orReg (fieldX w) (fieldY w))
  | 0x2 => .ok (.andReg (fieldX w) (fieldY w))
  | 0x3 => .ok (.xorReg (fieldX w) (fieldY w))
  | 0x4 => .ok (.addReg (fieldX w) (fieldY w))
  | 0x5 => .ok (.subReg (fieldX w) (fieldY w))
  | 0x6 => .ok (.shr (fieldX w) (fieldY w))
  | 0x7 => .ok (.subnReg (fieldX w) (fieldY w))
  | 0xE => .ok (.shl (fieldX w) (fieldY w))
  | _   => .error (.unrecognized w)

/-- Family F, keyed on all of `nn` (R74). -/
def decodeFamilyF (w : Word) : Except DecodeError Instr :=
  match (fieldNN w).toNat with
  | 0x07 => .ok (.ldVxDT (fieldX w))
  | 0x0A => .ok (.ldVxK (fieldX w))
  | 0x15 => .ok (.ldDTVx (fieldX w))
  | 0x18 => .ok (.ldSTVx (fieldX w))
  | 0x1E => .ok (.addI (fieldX w))
  | 0x29 => .ok (.ldF (fieldX w))
  | 0x33 => .ok (.ldB (fieldX w))
  | 0x55 => .ok (.storeRegs (fieldX w))
  | 0x65 => .ok (.loadRegs (fieldX w))
  | _    => .error (.unrecognized w)

/-- The decoder on one opcode: classify by the high nibble, then by the family's secondary key (R74, R92).
Every word is one of the 34 instructions or unrecognized (R77). -/
def decode (w : Word) : Except DecodeError Instr :=
  match fieldOp w with
  | 0x0 =>
    if w = 0x00E0#16 then .ok .cls
    else if w = 0x00EE#16 then .ok .ret
    else .error (.unrecognized w)
  | 0x1 => .ok (.jp (fieldNNN w))
  | 0x2 => .ok (.call (fieldNNN w))
  | 0x3 => .ok (.seImm (fieldX w) (fieldNN w))
  | 0x4 => .ok (.sneImm (fieldX w) (fieldNN w))
  | 0x5 => if (fieldN w).val = 0 then .ok (.seReg (fieldX w) (fieldY w)) else .error (.unrecognized w)
  | 0x6 => .ok (.ldImm (fieldX w) (fieldNN w))
  | 0x7 => .ok (.addImm (fieldX w) (fieldNN w))
  | 0x8 => decodeFamily8 w
  | 0x9 => if (fieldN w).val = 0 then .ok (.sneReg (fieldX w) (fieldY w)) else .error (.unrecognized w)
  | 0xA => .ok (.ldI (fieldNNN w))
  | 0xB => .ok (.jpV0 (fieldNNN w))
  | 0xC => .ok (.rnd (fieldX w) (fieldNN w))
  | 0xD => .ok (.drw (fieldX w) (fieldY w) (fieldN w))
  | 0xE =>
    if (fieldNN w).toNat = 0x9E then .ok (.skp (fieldX w))
    else if (fieldNN w).toNat = 0xA1 then .ok (.sknp (fieldX w))
    else .error (.unrecognized w)
  | 0xF => decodeFamilyF w
  | _   => .error (.unrecognized w)

/-- The decoder on bytes in memory order: one instruction and the rest of the bytes (R54, R70). -/
def decodeBytes (bytes : List Byte) : Except DecodeError (Instr × List Byte) :=
  match bytes with
  | hi :: lo :: rest =>
    match decode (wordOfBytes hi lo) with
    | .ok i    => .ok (i, rest)
    | .error e => .error e
  | _ => .error .truncated

/-- The instruction the decoder reads from the table's number `w` of `nbits` bits.
The opcode table numbers a row's one word with bit 0 its least significant bit; the word is laid out big-endian (R54). -/
def decodeTableWord (nbits w : Nat) : Option Instr :=
  let opcode : Word := BitVec.ofNat 16 (w % 2 ^ nbits)
  match decodeBytes [highByte opcode, lowByte opcode] with
  | .ok (i, _) => some i
  | .error _   => none

/-! ## The encoder -/

/-- `match | nnn`: format A (R84). -/
def encodeA (pattern : Word) (nnn : Addr12) : Word := pattern ||| nnn.setWidth 16

/-- `match | (x << 8) | nn`: format I (R84). -/
def encodeI (pattern : Word) (x : Reg) (nn : Byte) : Word :=
  pattern ||| (BitVec.ofNat 16 x.val <<< 8) ||| nn.setWidth 16

/-- `match | (x << 8) | (y << 4)`: format R, whose `n` is part of the match (R84). -/
def encodeR (pattern : Word) (x y : Reg) : Word :=
  pattern ||| (BitVec.ofNat 16 x.val <<< 8) ||| (BitVec.ofNat 16 y.val <<< 4)

/-- `match | (x << 8) | (y << 4) | n`: format D (R84). -/
def encodeD (pattern : Word) (x y : Reg) (n : Height) : Word :=
  pattern ||| (BitVec.ofNat 16 x.val <<< 8) ||| (BitVec.ofNat 16 y.val <<< 4) ||| BitVec.ofNat 16 n.val

/-- `match | (x << 8)`: format X (R84). -/
def encodeX (pattern : Word) (x : Reg) : Word := pattern ||| (BitVec.ofNat 16 x.val <<< 8)

/-- The word of an instruction (R84). The ignored `y` of `8XY6` and `8XYE` is encoded as it stands (R76). -/
def encode (i : Instr) : Word :=
  match i with
  | .cls           => 0x00E0#16
  | .ret           => 0x00EE#16
  | .jp nnn        => encodeA 0x1000#16 nnn
  | .call nnn      => encodeA 0x2000#16 nnn
  | .seImm x nn    => encodeI 0x3000#16 x nn
  | .sneImm x nn   => encodeI 0x4000#16 x nn
  | .seReg x y     => encodeR 0x5000#16 x y
  | .ldImm x nn    => encodeI 0x6000#16 x nn
  | .addImm x nn   => encodeI 0x7000#16 x nn
  | .ldReg x y     => encodeR 0x8000#16 x y
  | .orReg x y     => encodeR 0x8001#16 x y
  | .andReg x y    => encodeR 0x8002#16 x y
  | .xorReg x y    => encodeR 0x8003#16 x y
  | .addReg x y    => encodeR 0x8004#16 x y
  | .subReg x y    => encodeR 0x8005#16 x y
  | .shr x y       => encodeR 0x8006#16 x y
  | .subnReg x y   => encodeR 0x8007#16 x y
  | .shl x y       => encodeR 0x800E#16 x y
  | .sneReg x y    => encodeR 0x9000#16 x y
  | .ldI nnn       => encodeA 0xA000#16 nnn
  | .jpV0 nnn      => encodeA 0xB000#16 nnn
  | .rnd x nn      => encodeI 0xC000#16 x nn
  | .drw x y n     => encodeD 0xD000#16 x y n
  | .skp x         => encodeX 0xE09E#16 x
  | .sknp x        => encodeX 0xE0A1#16 x
  | .ldVxDT x      => encodeX 0xF007#16 x
  | .ldVxK x       => encodeX 0xF00A#16 x
  | .ldDTVx x      => encodeX 0xF015#16 x
  | .ldSTVx x      => encodeX 0xF018#16 x
  | .addI x        => encodeX 0xF01E#16 x
  | .ldF x         => encodeX 0xF029#16 x
  | .ldB x         => encodeX 0xF033#16 x
  | .storeRegs x   => encodeX 0xF055#16 x
  | .loadRegs x    => encodeX 0xF065#16 x

/-- Assembling one line: the row's word when every operand fits its field, nothing when one does not (R82, R84). -/
def assemble (r : Row) (o : RawOperands) : Option Word :=
  if o.wellFormed r.format then
    some (match r.format with
      | .Z => r.pattern
      | .A => r.pattern ||| BitVec.ofNat 16 o.nnn
      | .I => r.pattern ||| (BitVec.ofNat 16 o.x <<< 8) ||| BitVec.ofNat 16 o.nn
      | .R => r.pattern ||| (BitVec.ofNat 16 o.x <<< 8) ||| (BitVec.ofNat 16 o.y <<< 4)
      | .D => r.pattern ||| (BitVec.ofNat 16 o.x <<< 8) ||| (BitVec.ofNat 16 o.y <<< 4) ||| BitVec.ofNat 16 o.n
      | .X => r.pattern ||| (BitVec.ofNat 16 o.x <<< 8))
  else none

end Sys2Proof
end

