-- ==== Sys2Proof/Config.lean ====
section
/-! DEFINITION. Sys2Proof/Config.lean: the implementation parameters of R8 and R9, and the free values of the model. -/

namespace Sys2Proof.Config

/-- `MEM_SIZE` (R8): 4096 bytes, addresses 0x000..0xFFF. -/
def memSize : Nat := 4096

/-- `PROG_BASE` (R8): the reset `pc` and the load address. -/
def progBase : Nat := 0x200

/-- `PROG_MAX` (R8): the longest image `loadProgram` accepts. -/
def progMax : Nat := 3584

/-- `FONT_BASE` (R8). -/
def fontBase : Nat := 0x000

/-- `FONT_LEN` (R8): 16 glyphs of 5 bytes. -/
abbrev fontLen : Nat := 80

/-- The bytes of one glyph (R8, R33). -/
def glyphBytes : Nat := 5

/-- `STACK_DEPTH` (R8). -/
def stackDepth : Nat := 16

/-- `NKEYS` (R8). -/
def numKeys : Nat := 16

/-- `DISP_W` (R8): the columns of the display. -/
def dispWidth : Nat := 64

/-- `DISP_H` (R8): the rows of the display. -/
def dispHeight : Nat := 32

/-- The pixels of the display, 64 × 32 = 2048 (R8, R29). -/
def numPixels : Nat := dispWidth * dispHeight

/-- FREE VALUE. The `keys` input the host presents for a later cycle that the state's own list of
coming inputs does not reach; the argument counts such draws.
R34 and R236 let the host present any `keys` in any cycle, so nothing constrains it (log entry 1). -/
opaque hostKeys : Nat → BitVec 16

/-- FREE VALUE. The `rnd` input of such a cycle.
R35: the generator is outside the core and the model places no law on the sequence (log entry 1). -/
opaque hostRnd : Nat → Byte

end Sys2Proof.Config
end

