-- ==== Sys2Proof/Machine/Font.lean ====
section
/-! DEFINITION. Sys2Proof/Machine/Font.lean: `FONT`, the parameter of the model (R9, R33), its default table, and the memory reset installs it in (R36). -/

namespace Sys2Proof.Machine

/-- `FONT`: the 80 glyph bytes, glyph `d` at bytes `5*d` to `5*d + 4` (R33).
A parameter (R9, D22): `State.resetWith` and `hostReset` take it, and a claim for every font is one for every `Font`. -/
abbrev Font := Vector Byte Config.fontLen

/-- Digits 0 to 7 of the default table. PRESUMED: the spec gives it as general knowledge (R33, K1, log entry 5). -/
def fontLow : Vector Byte 40 :=
  #v[ 0xF0, 0x90, 0x90, 0x90, 0xF0,   0x20, 0x60, 0x20, 0x20, 0x70,
      0xF0, 0x10, 0xF0, 0x80, 0xF0,   0xF0, 0x10, 0xF0, 0x10, 0xF0,
      0x90, 0x90, 0xF0, 0x10, 0x10,   0xF0, 0x80, 0xF0, 0x10, 0xF0,
      0xF0, 0x80, 0xF0, 0x90, 0xF0,   0xF0, 0x10, 0x20, 0x40, 0x40 ]

/-- Digits 8 to F of the default table. PRESUMED, as `fontLow` (log entry 5). -/
def fontHigh : Vector Byte 40 :=
  #v[ 0xF0, 0x90, 0xF0, 0x90, 0xF0,   0xF0, 0x90, 0xF0, 0x10, 0xF0,
      0xF0, 0x90, 0xF0, 0x90, 0x90,   0xE0, 0x90, 0xE0, 0x90, 0xE0,
      0xF0, 0x80, 0x80, 0x80, 0xF0,   0xE0, 0x90, 0x90, 0x90, 0xE0,
      0xF0, 0x80, 0xF0, 0x80, 0xF0,   0xF0, 0x80, 0xF0, 0x80, 0x80 ]

/-- The default value of the parameter (R33), which `State.reset` takes. -/
def defaultFont : Font := fontLow ++ fontHigh

/-- What an unlisted address reads as: 0x00, what reset leaves in every byte the font does not take (R36, R230). -/
def unlistedByte : Byte := 0x00

/-- The list of the bytes at `a` and up that differ from what an unlisted address reads as. -/
def cellsFrom (a : Nat) (bytes : List Byte) : List Host.Cell :=
  match bytes with
  | [] => []
  | b :: rest => if b = unlistedByte then cellsFrom (a + 1) rest else (a, b) :: cellsFrom (a + 1) rest

/-- Memory after reset: the font at 0x000 and nothing else listed (R36). -/
def fontMemory (font : Font) : List Host.Cell := cellsFrom Config.fontBase font.toList

end Sys2Proof.Machine
end

