-- ==== Sys2Proof/Machine/State.lean ====
section
/-! DEFINITION. Sys2Proof/Machine/State.lean: the state of the core (R20), the inputs and outputs of a cycle (R90), the fault and refusal reasons, and the reset state (R36). -/

namespace Sys2Proof.Machine

/-- The 4096 bytes of memory (R30, R50) as a list of the bytes that are not 0x00:
addresses strictly rising, no entry equal to what an unlisted address reads as (Memory.wf, log entry 6). -/
abbrev Memory := List Host.Cell

/-- The `status` output of a cycle (R90, R95). -/
inductive Status where
  | completed
  | waiting
  | halted
deriving DecidableEq, Repr

/-- What an out-of-range access was for (R90, R206). -/
inductive Space where
  | fetch
  | data
  | key
deriving DecidableEq, Repr

/-- The error a cycle reports on its `event` output, with the payload of R206. -/
inductive Event where
  /-- the word fetched and the `pc` it was fetched from (R78, R202) -/
  | unknownOpcode (opcode pc : Word)
  /-- the `pc` of the `2NNN` (R204) -/
  | stackOverflow (pc : Word)
  /-- the `pc` of the `00EE` (R205) -/
  | stackUnderflow (pc : Word)
  /-- fetch: the `pc`; data: `max(I, 4096)`; key: the value of `V[x]` (R203). The only fatal kind at run time -/
  | addressOutOfRange (space : Space) (addr : Nat)
deriving DecidableEq, Repr

/-- The output record of one cycle (R90). -/
structure Outputs where
  status       : Status
  event        : Option Event
  drawOccurred : Bool
  beep         : Bool
deriving DecidableEq, Repr

/-- The inputs the host presents for one cycle (R34, R35, R90). -/
structure Inputs where
  /-- bit `k` is 1 when key `k` is pressed -/
  keys : BitVec 16
  /-- the value `random_byte()` returns in the cycle -/
  rnd  : Byte
deriving DecidableEq, Repr

/-- The machine. The first ten fields are the complete state of the core (R20).
The rest is the model's own: the outputs of the cycle just run, the mark of U1, and the host's inputs (log entries 1 to 4). -/
structure State where
  /-- memory (R30) -/
  mem      : Memory
  /-- the general registers `V[0]`..`V[15]` (R21), `V[15]` the flag (R22) -/
  V        : Vector Byte 16
  /-- the index register (R23) -/
  I        : Word
  /-- the program counter (R24) -/
  pc       : Word
  /-- the return stack (R25) -/
  stack    : Vector Word 16
  /-- the count of occupied slots, 0..16 (R26) -/
  sp       : Fin 17
  /-- the delay timer (R27) -/
  DT       : Byte
  /-- the sound timer (R28) -/
  ST       : Byte
  /-- the display, 32 rows of 64 pixels (R29). Pixel `i` is bit `i % 64` of row `i / 64` -/
  display  : Vector (BitVec 64) 32
  /-- the sticky mark of a fatal error (R31) -/
  halted   : Bool
  /-- the outputs of the cycle that produced this state (R90). No instruction reads them -/
  out      : Outputs
  /-- sticky: some cycle since reset has output an event (U1 of 93_implementation_defined.md). No instruction reads it -/
  reported : Bool
  /-- the inputs presented for the coming cycle (R34, R35). No instruction writes them -/
  port     : Inputs
  /-- the inputs the host will present in the cycles after that, the next one first -/
  upcoming : List Inputs
  /-- how many inputs have been drawn from the free values of Config -/
  drawn    : Nat
deriving DecidableEq, Repr

/-- Why an operation of the machine fails. No instruction and no cycle raises any of these.
An error of an instruction is an `event` and a next state (R94, R102). -/
inductive Fault where
  /-- `ProgramTooLarge`, with the image's length: raised by the host operation `loadProgram` alone (R201, R232).
  Safe: the load fails and the caller keeps the state it had. -/
  | programTooLarge (len : Nat)
deriving DecidableEq, Repr

/-- Why an instruction has no meaning in the model. -/
inductive Refusal where
  /-- An instruction not modelled yet, raised by its arm of `exec`. Safe. No arm raises it: all 34 are modelled. -/
  | notModelled (mnemonic : String)
deriving DecidableEq, Repr

/-- The outputs of a cycle that reports nothing, which the latch also shows before the first cycle (log entry 2). -/
def quietOutputs : Outputs :=
  { status := .completed, event := none, drawOccurred := false, beep := false }

/-- The state after `reset()` (R36, R230, R231) for a font: the first ten fields as R36 lists them.
The other five are the model's own, at the values of log entry 2 (DESIGN CHOICE). -/
def State.resetWith (font : Font) : State where
  mem      := fontMemory font
  V        := Vector.replicate 16 0
  I        := 0
  pc       := 0x0200
  stack    := Vector.replicate 16 0
  sp       := 0
  DT       := 0
  ST       := 0
  display  := Vector.replicate 32 0
  halted   := false
  out      := quietOutputs
  reported := false
  port     := { keys := 0, rnd := 0 }
  upcoming := []
  drawn    := 0

/-- The state after `reset()` with the default font of R33 (PRESUMED, log entry 5). -/
def State.reset : State := State.resetWith defaultFont

end Sys2Proof.Machine
end

