-- ==== Sys2Proof/Machine/Memory.lean ====
section
/-! DEFINITION. Sys2Proof/Machine/Memory.lean: the access primitives MemRead and MemWrite (R52) over the list of listed bytes, and its canonical form. -/

namespace Sys2Proof.Machine

/-- `MemRead(a, 1)` (R52). Defined in the spec for `a ≤ 4095`; every use establishes that first. -/
def memRead (m : Memory) (a : Nat) : Byte :=
  match m with
  | [] => unlistedByte
  | (b, v) :: rest => if a = b then v else memRead rest a

/-- The list with address `a` holding `v`, kept in canonical form. -/
def memSet (m : Memory) (a : Nat) (v : Byte) : Memory :=
  match m with
  | [] => if v = unlistedByte then [] else [(a, v)]
  | (b, u) :: rest =>
    if a < b then
      if v = unlistedByte then (b, u) :: rest else (a, v) :: (b, u) :: rest
    else if a = b then
      if v = unlistedByte then rest else (a, v) :: rest
    else (b, u) :: memSet rest a v

/-- `MemWrite(a, 1, v)` (R52). Outside 0..4095, where the spec defines none and no use reaches, it changes nothing (log entry 6). -/
def memWrite (m : Memory) (a : Nat) (v : Byte) : Memory :=
  if a < Config.memSize then memSet m a v else m

/-- The bytes at `a`, `a + 1`, .., `a + k - 1`, in ascending address order (R52). -/
def memReadList (m : Memory) (a k : Nat) : List Byte :=
  match k with
  | 0 => []
  | k + 1 => memRead m a :: memReadList m (a + 1) k

/-- Bytes stored at `a`, `a + 1`, .., in ascending address order (R52). -/
def memWriteList (m : Memory) (a : Nat) (bytes : List Byte) : Memory :=
  match bytes with
  | [] => m
  | b :: rest => memWriteList (memWrite m a b) (a + 1) rest

/-- The canonical form, from address `lo` up. -/
def Memory.wfFrom (lo : Nat) (m : Memory) : Bool :=
  match m with
  | [] => true
  | (a, v) :: rest =>
    decide (lo ≤ a) && decide (a < Config.memSize) && decide (v ≠ unlistedByte) && Memory.wfFrom (a + 1) rest

/-- The canonical form: addresses strictly rising and below 4096 (R37 (d)), no entry equal to what an unlisted address reads as. -/
def Memory.wf (m : Memory) : Bool := Memory.wfFrom 0 m

end Sys2Proof.Machine
end

