-- ==== Sys2Proof/Machine/Ops.lean ====
section
/-! DEFINITION. Sys2Proof/Machine/Ops.lean: the named operations over the state: registers, stack, memory, display, the ends of an execute phase (R94), and raising an error (R99, R102, R209). -/

namespace Sys2Proof.Machine

/-- What an execute phase answers. -/
abbrev Result := Host.Outcome State Fault Refusal

/-! ## Registers -/

/-- The value of `V[x]` (R21). -/
def readV (s : State) (x : Reg) : Byte := s.V[x]

/-- `V[x] <- b` (R21). -/
def writeV (s : State) (x : Reg) (b : Byte) : State := { s with V := s.V.set x.val b x.isLt }

/-- `pc <- t` (R11). A target is never checked here (R110). -/
def setPc (s : State) (t : Word) : State := { s with pc := t }

/-- `pc <- pc + 2`, the default next program counter (R93). -/
def advance (s : State) : State := setPc s (s.pc + 2)

/-- `pc <- pc + 4` when the condition holds, else `pc <- pc + 2` (R24, R115). -/
def skipIf (c : Bool) (s : State) : State := setPc s (if c then s.pc + 4 else s.pc + 2)

/-- `I <- w` (R23). -/
def setI (s : State) (w : Word) : State := { s with I := w }

/-- `DT <- b` (R27). -/
def setDT (s : State) (b : Byte) : State := { s with DT := b }

/-- `ST <- b` (R28). -/
def setST (s : State) (b : Byte) : State := { s with ST := b }

/-! ## The return stack -/

/-- Push: slot `sp` takes the word and `sp` rises by one; none when all 16 slots are occupied (R25, R26). -/
def push (s : State) (w : Word) : Option State :=
  if h : s.sp.val < 16 then
    some { s with stack := s.stack.set s.sp.val w h, sp := ⟨s.sp.val + 1, by omega⟩ }
  else none

/-- Pop: the word of slot `sp - 1`, with `sp` lower by one and the slot's old value left in place; none when empty (R25, R26). -/
def pop (s : State) : Option (Word × State) :=
  if s.sp.val = 0 then none
  else some (s.stack[s.sp.val - 1], { s with sp := ⟨s.sp.val - 1, by omega⟩ })

/-! ## Memory -/

/-- Bytes stored from address `a` up. -/
def storeBytes (s : State) (a : Nat) (bytes : List Byte) : State := { s with mem := memWriteList s.mem a bytes }

/-- `V[0]`..`V[k-1]` take the bytes at `a`, .., `a + k - 1`, in ascending order (R156). -/
def loadInto (m : Memory) (a : Nat) (k : Nat) (V : Vector Byte 16) : Vector Byte 16 :=
  match k with
  | 0 => V
  | k + 1 => (loadInto m a k V).setIfInBounds k (memRead m (a + k))

/-! ## Display -/

/-- Pixel `i` of the display, `i = row * 64 + column` (R29, R170). -/
def pixelOf (d : Vector (BitVec 64) 32) (i : Nat) : Bool :=
  (d[i / Config.dispWidth]?.getD 0).getLsbD (i % Config.dispWidth)

/-- `display[i]` of a state. -/
def pixel (s : State) (i : Nat) : Bool := pixelOf s.display i

/-- `display[i] <- display[i] ^ 1` (R172). -/
def togglePixel (d : Vector (BitVec 64) 32) (i : Nat) : Vector (BitVec 64) 32 :=
  d.setIfInBounds (i / Config.dispWidth)
    (d[i / Config.dispWidth]?.getD 0 ^^^ BitVec.twoPow 64 (i % Config.dispWidth))

/-- Every pixel 0 (R171). -/
def clearDisplay (s : State) : State := { s with display := Vector.replicate 32 0 }

/-! ## How an execute phase ends (R94) -/

/-- The state with the cycle's outputs latched. The tick adds `beep` later (R101). -/
def latch (s : State) (status : Status) (event : Option Event) (draw : Bool) : State :=
  { s with out := { status := status, event := event, drawOccurred := draw, beep := false } }

/-- Way (a), normal: the writes are committed, `status = Completed`, `event = None` (R94). -/
def normal (s : State) : Result := .next (latch s .completed none false)

/-- Way (a) of the two display instructions, which also assert `draw_occurred` (R97, R170). -/
def normalDraw (s : State) : Result := .next (latch s .completed none true)

/-- Way (c), waiting: no write at all, `pc` unchanged, `status = Waiting` (R94, R98). -/
def waiting (s : State) : Result := .next (latch s .waiting none false)

/-- RAISING AN ERROR, the machine's exception entry (R209): nothing is saved, no mode changes, control goes nowhere special.
Fatal (`AddressOutOfRange`): nothing is committed but `halted <- 1`, and `status = Halted` (R94 (d), R102, R203).
Reported (the other three): nothing is written but `pc <- pc + 2`, and `status = Completed` (R94 (b), R99).
There is no return from it (R210): only `reset()` leaves the halted state. -/
def raiseError (e : Event) (s : State) : State :=
  match e with
  | .addressOutOfRange sp a =>
    { latch s .halted (some (.addressOutOfRange sp a)) false with halted := true, reported := true }
  | .unknownOpcode w p =>
    { latch (advance s) .completed (some (.unknownOpcode w p)) false with reported := true }
  | .stackOverflow p =>
    { latch (advance s) .completed (some (.stackOverflow p)) false with reported := true }
  | .stackUnderflow p =>
    { latch (advance s) .completed (some (.stackUnderflow p)) false with reported := true }

/-- The execute phase that ends in an error. -/
def raised (e : Event) (s : State) : Result := .next (raiseError e s)

/-- The numeric code of an error kind (R200). Code 1, `ProgramTooLarge`, is `Fault.code`. -/
def Event.code : Event → Nat
  | .addressOutOfRange _ _ => 2
  | .stackOverflow _ => 3
  | .stackUnderflow _ => 4
  | .unknownOpcode _ _ => 5

/-- The numeric code of the load error (R200). -/
def Fault.code : Fault → Nat
  | .programTooLarge _ => 1

/-- The kind is fatal at run time (R200). -/
def Event.fatal : Event → Bool
  | .addressOutOfRange _ _ => true
  | _ => false

/-- A function of the next state applied to an outcome. -/
def mapNext (f : State → State) (r : Result) : Result :=
  match r with
  | .next s => .next (f s)
  | .fault e => .fault e
  | .refused e => .refused e

end Sys2Proof.Machine
end

