-- ==== Sys2Proof/Machine/Cycle.lean ====
section
/-! DEFINITION. Sys2Proof/Machine/Cycle.lean: the phases of a cycle around execute: fetch (R91), the timer tick and `beep` (R100, R101), the halted cycle (R102), and the host's next inputs (R34, R35, R236). -/

namespace Sys2Proof.Machine

/-- Fetch (R91): the big-endian word at `pc`, or the offending `pc` when `pc + 1` is past memory. -/
def fetch (s : State) : Except Nat Word :=
  if Config.memSize ≤ s.pc.toNat + 1 then .error s.pc.toNat
  else .ok (wordOfBytes (memRead s.mem s.pc.toNat) (memRead s.mem (s.pc.toNat + 1)))

/-- One down-count toward zero (R27, R100). -/
def countDown (b : Byte) : Byte := if b = 0 then 0 else b - 1

/-- The post-cycle timer tick (R100); `beep` when it takes `ST` from 1 to 0 (R101). -/
def tick (s : State) : State :=
  { s with DT := countDown s.DT, ST := countDown s.ST, out := { s.out with beep := s.ST == 1 } }

/-- The host presents the next cycle's inputs: the next of the state's own list, or free values once it is empty (R236, log entry 1). -/
def nextInputs (s : State) : State :=
  match s.upcoming with
  | i :: rest => { s with port := i, upcoming := rest }
  | [] => 
    { s with port := { keys := Config.hostKeys s.drawn, rnd := Config.hostRnd s.drawn }, drawn := s.drawn + 1 }

/-- What follows the execute phase: the tick, in every cycle but a fatal one (R100, R102), then the host's turn. -/
def endCycle (s : State) : State := nextInputs (if s.halted then s else tick s)

/-- A cycle begun halted: nothing changes, outputs Halted, None, 0, 0 (R102). -/
def haltedCycle (s : State) : State := nextInputs (latch s .halted none false)

/-- The cycle of an unrecognized opcode, up to the tick (R78, R99). -/
def unknownCycle (w : Word) (s : State) : State := raiseError (.unknownOpcode w s.pc) s

/-- The cycle whose fetch is out of range (R91, R102). -/
def fetchErrorCycle (a : Nat) (s : State) : State := raiseError (.addressOutOfRange .fetch a) s

/-- The state with a word's two bytes stored at `pc` and `pc + 1`, high byte first (R54). -/
def placeWord (s : State) (w : Word) : State := storeBytes s s.pc.toNat [highByte w, lowByte w]

end Sys2Proof.Machine
end

