-- ==== Sys2Proof/Machine/Flags.lean ====
section
/-! DEFINITION. Sys2Proof/Machine/Flags.lean: every flag computation; `V[0xF]` is the only flag (R22). -/

namespace Sys2Proof.Machine

/-- The flag as the byte `V[0xF]` takes: 0 or 1 (R22). -/
def flagByte (b : Bool) : Byte := if b then 1 else 0

/-- `V[0xF] <- 0 or 1` (R22). -/
def writeFlag (s : State) (b : Bool) : State := writeV s regF (flagByte b)

/-- The flag first, then the result, so that the result survives when `x = 0xF` (R12, R130). -/
def writeFlagThen (s : State) (flag : Bool) (x : Reg) (result : Byte) : State :=
  writeV (writeFlag s flag) x result

/-- `8XY4`: the exact sum exceeds 255 (R137). -/
def carryOut (a b : Byte) : Bool := decide (255 < a.toNat + b.toNat)

/-- `8XY5`, `8XY7`: no borrow, that is the minuend is not below the subtrahend (R138, R140). -/
def noBorrow (minuend subtrahend : Byte) : Bool := !decide (minuend.toNat < subtrahend.toNat)

/-- `8XY6`: the bit shifted out on the right, bit 0 (R139). -/
def shiftedOutRight (a : Byte) : Bool := a.getLsbD 0

/-- `8XYE`: the bit shifted out on the left, bit 7 (R141). -/
def shiftedOutLeft (a : Byte) : Bool := a.getLsbD 7

end Sys2Proof.Machine
end

