-- ==== Sys2Proof/Machine/Operands.lean ====
section
/-! DEFINITION. Sys2Proof/Machine/Operands.lean: every operand form: address immediates (R73), the index-relative addresses and their range check (R53, R150), glyph addresses (R153), decimal digits (R154), the register block (R155), key operands (R181, R183), and sprite rows and pixels (R172). -/

namespace Sys2Proof.Machine

/-- An address immediate, zero-extended to 16 bits (R73). -/
def addrOf (nnn : Addr12) : Word := nnn.setWidth 16

/-- A register value, zero-extended to 16 bits (R11). -/
def wide (b : Byte) : Word := b.setWidth 16

/-- The address of the `i`-th byte an instruction moves: `I + i`, an unbounded integer (R150). -/
def effAddr (s : State) (i : Nat) : Nat := s.I.toNat + i

/-- The range check of a data access of `k` bytes from `I` (R53): the lowest offending address, or none when every byte is in range.
With `k = 0` nothing is accessed and nothing offends. -/
def outOfRange (s : State) (k : Nat) : Option Nat :=
  if 0 < k ∧ Config.memSize ≤ effAddr s (k - 1) then some (max s.I.toNat Config.memSize) else none

/-- A data access of `k` bytes from `I`: fatal before any effect when a byte is out of range, else what the instruction does (R53, R203). -/
def dataAccess (s : State) (k : Nat) (done : Result) : Result :=
  match outOfRange s k with
  | some a => raised (.addressOutOfRange .data a) s
  | none => done

/-- The address of the glyph of a value: all 8 bits times 5 (R153). -/
def glyphAddr (b : Byte) : Word := BitVec.ofNat 16 Config.fontBase + wide b * BitVec.ofNat 16 Config.glyphBytes

/-- Hundreds, tens, ones (R154). -/
def bcdDigits (b : Byte) : List Byte :=
  [ BitVec.ofNat 8 (b.toNat / 100), BitVec.ofNat 8 (b.toNat / 10 % 10), BitVec.ofNat 8 (b.toNat % 10) ]

/-- `V[0]`..`V[x]` (R155). -/
def regBlock (s : State) (x : Reg) : List Byte := s.V.toList.take (x.val + 1)

/-- Key `k` is pressed in this cycle (R34). -/
def keyPressed (s : State) (k : Nat) : Bool := s.port.keys.getLsbD k

/-- The least pressed key at or after `k`, of `n` keys looked at. -/
def leastKeyFrom (keys : BitVec 16) (k n : Nat) : Option Nat :=
  match n with
  | 0 => none
  | n + 1 => if keys.getLsbD k then some k else leastKeyFrom keys (k + 1) n

/-- The least `i` in 0..15 with `keys[i] = 1`, none when no key is pressed (R183). -/
def leastKey (keys : BitVec 16) : Option Nat := leastKeyFrom keys 0 Config.numKeys

/-- A key operand `V[x]`: fatal when it is above 15, else what the instruction does (R187). -/
def keyAccess (s : State) (x : Reg) (done : Result) : Result :=
  if 15 < (readV s x).toNat then raised (.addressOutOfRange .key (readV s x).toNat) s else done

/-- The pixel sprite bit (`row`, `col`) lands on: the linear formula, exact integers before the mod (R172). -/
def pixelIndex (cx cy row col : Nat) : Nat := ((cy + row) * Config.dispWidth + cx + col) % Config.numPixels

/-- Bit `7 - col` of a sprite byte: column 0 is the most significant bit (R172). -/
def spriteBit (b : Byte) (col : Nat) : Bool := b.getLsbD (7 - col)

/-- A display with the collision seen so far. -/
structure Canvas where
  display   : Vector (BitVec 64) 32
  collision : Bool
deriving DecidableEq, Repr

/-- One set sprite bit: collide if the pixel is set, then toggle it (R172, R174). -/
def plot (c : Canvas) (i : Nat) : Canvas :=
  { display := togglePixel c.display i, collision := c.collision || pixelOf c.display i }

/-- The `n` last columns of one sprite row, left to right (R172). -/
def plotCols (b : Byte) (cx cy row n : Nat) (c : Canvas) : Canvas :=
  match n with
  | 0 => c
  | n + 1 =>
    let col := 7 - n
    plotCols b cx cy row n (if spriteBit b col then plot c (pixelIndex cx cy row col) else c)

/-- The rows of a sprite from `row` down, in ascending address order (R172). -/
def plotRows (bytes : List Byte) (cx cy row : Nat) (c : Canvas) : Canvas :=
  match bytes with
  | [] => c
  | b :: rest => plotRows rest cx cy (row + 1) (plotCols b cx cy row 8 c)

end Sys2Proof.Machine
end

