-- ==== Sys2Proof/Machine/Alu.lean ====
section
/-! DEFINITION. Sys2Proof/Machine/Alu.lean: the execute phase of the register load, arithmetic, logic, shift and random instructions (R130 to R143). -/

namespace Sys2Proof.Machine

/-- `6XNN` (R131). -/
def execLdImm (x : Reg) (nn : Byte) (s : State) : Result := normal (advance (writeV s x nn))

/-- `7XNN` (R132): no flag. -/
def execAddImm (x : Reg) (nn : Byte) (s : State) : Result := normal (advance (writeV s x (readV s x + nn)))

/-- `8XY0` (R133). -/
def execLdReg (x y : Reg) (s : State) : Result := normal (advance (writeV s x (readV s y)))

/-- `8XY1` (R134): no flag. -/
def execOrReg (x y : Reg) (s : State) : Result := normal (advance (writeV s x (readV s x ||| readV s y)))

/-- `8XY2` (R135): no flag. -/
def execAndReg (x y : Reg) (s : State) : Result := normal (advance (writeV s x (readV s x &&& readV s y)))

/-- `8XY3` (R136): no flag. -/
def execXorReg (x y : Reg) (s : State) : Result := normal (advance (writeV s x (readV s x ^^^ readV s y)))

/-- `8XY4` (R137). -/
def execAddReg (x y : Reg) (s : State) : Result :=
  let a := readV s x
  let b := readV s y
  normal (advance (writeFlagThen s (carryOut a b) x (a + b)))

/-- `8XY5` (R138). -/
def execSubReg (x y : Reg) (s : State) : Result :=
  let a := readV s x
  let b := readV s y
  normal (advance (writeFlagThen s (noBorrow a b) x (a - b)))

/-- `8XY6` (R139): `V[y]` is neither read nor written (R76). -/
def execShr (x _y : Reg) (s : State) : Result :=
  let a := readV s x
  normal (advance (writeFlagThen s (shiftedOutRight a) x (a >>> 1)))

/-- `8XY7` (R140). -/
def execSubnReg (x y : Reg) (s : State) : Result :=
  let a := readV s x
  let b := readV s y
  normal (advance (writeFlagThen s (noBorrow b a) x (b - a)))

/-- `8XYE` (R141): `V[y]` is neither read nor written (R76). -/
def execShl (x _y : Reg) (s : State) : Result :=
  let a := readV s x
  normal (advance (writeFlagThen s (shiftedOutLeft a) x (a <<< 1)))

/-- `CXNN` (R142): `rnd` is the input of this cycle. -/
def execRnd (x : Reg) (nn : Byte) (s : State) : Result := normal (advance (writeV s x (s.port.rnd &&& nn)))

end Sys2Proof.Machine
end

