-- ==== Sys2Proof/Machine/ControlFlow.lean ====
section
/-! DEFINITION. Sys2Proof/Machine/ControlFlow.lean: the execute phase of the control transfer and skip instructions (R110 to R118). -/

namespace Sys2Proof.Machine

/-- `00EE` (R111, R205). -/
def execRet (s : State) : Result :=
  match pop s with
  | none => raised (.stackUnderflow s.pc) s
  | some (ra, s') => normal (setPc s' ra)

/-- `1NNN` (R112). -/
def execJp (nnn : Addr12) (s : State) : Result := normal (setPc s (addrOf nnn))

/-- `2NNN` (R113, R204). -/
def execCall (nnn : Addr12) (s : State) : Result :=
  match push s (s.pc + 2) with
  | none => raised (.stackOverflow s.pc) s
  | some s' => normal (setPc s' (addrOf nnn))

/-- `BNNN` (R114): the offset is always `V[0]` and the sum is not masked. -/
def execJpV0 (nnn : Addr12) (s : State) : Result := normal (setPc s (addrOf nnn + wide (readV s regZero)))

/-- `3XNN` (R115). -/
def execSeImm (x : Reg) (nn : Byte) (s : State) : Result := normal (skipIf (readV s x == nn) s)

/-- `4XNN` (R116). -/
def execSneImm (x : Reg) (nn : Byte) (s : State) : Result := normal (skipIf (readV s x != nn) s)

/-- `5XY0` (R117). -/
def execSeReg (x y : Reg) (s : State) : Result := normal (skipIf (readV s x == readV s y) s)

/-- `9XY0` (R118). -/
def execSneReg (x y : Reg) (s : State) : Result := normal (skipIf (readV s x != readV s y) s)

end Sys2Proof.Machine
end

