-- ==== Sys2Proof/Machine/Display.lean ====
section
/-! DEFINITION. Sys2Proof/Machine/Display.lean: the execute phase of the clear and the sprite XOR-blit (R170 to R174). -/

namespace Sys2Proof.Machine

/-- `00E0` (R171). -/
def execCls (s : State) : Result := normalDraw (advance (clearDisplay s))

/-- `DXYN` (R172): the coordinates and `I` are sampled first, the flag is written once, after the last pixel. -/
def execDrw (x y : Reg) (n : Height) (s : State) : Result :=
  let cx := (readV s x).toNat
  let cy := (readV s y).toNat
  let c := plotRows (memReadList s.mem (effAddr s 0) n.val) cx cy 0 { display := s.display, collision := false }
  dataAccess s n.val (normalDraw (advance (writeFlag { s with display := c.display } c.collision)))

end Sys2Proof.Machine
end

