-- ==== Sys2Proof/Machine/Index.lean ====
section
/-! DEFINITION. Sys2Proof/Machine/Index.lean: the execute phase of the index register, BCD, register store and register load instructions (R150 to R156). -/

namespace Sys2Proof.Machine

/-- `ANNN` (R151). -/
def execLdI (nnn : Addr12) (s : State) : Result := normal (advance (setI s (addrOf nnn)))

/-- `FX1E` (R152): modulo 65536, no flag. -/
def execAddI (x : Reg) (s : State) : Result := normal (advance (setI s (s.I + wide (readV s x))))

/-- `FX29` (R153): all 8 bits of `V[x]`. -/
def execLdF (x : Reg) (s : State) : Result := normal (advance (setI s (glyphAddr (readV s x))))

/-- `FX33` (R154). -/
def execLdB (x : Reg) (s : State) : Result :=
  dataAccess s 3 (normal (advance (storeBytes s (effAddr s 0) (bcdDigits (readV s x)))))

/-- `FX55` (R155): `I` is unchanged. -/
def execStoreRegs (x : Reg) (s : State) : Result :=
  dataAccess s (x.val + 1) (normal (advance (storeBytes s (effAddr s 0) (regBlock s x))))

/-- `FX65` (R156): `I` is unchanged. -/
def execLoadRegs (x : Reg) (s : State) : Result :=
  dataAccess s (x.val + 1)
    (normal (advance { s with V := loadInto s.mem (effAddr s 0) (x.val + 1) s.V }))

end Sys2Proof.Machine
end

