-- ==== Sys2Proof/Machine/KeysTimers.lean ====
section
/-! DEFINITION. Sys2Proof/Machine/KeysTimers.lean: the execute phase of the keypad and timer instructions (R180 to R187). -/

namespace Sys2Proof.Machine

/-- `EX9E` (R181, R187): the key number is the value of `V[x]`. -/
def execSkp (x : Reg) (s : State) : Result :=
  keyAccess s x (normal (skipIf (keyPressed s (readV s x).toNat) s))

/-- `EXA1` (R182, R187). -/
def execSknp (x : Reg) (s : State) : Result :=
  keyAccess s x (normal (skipIf (!keyPressed s (readV s x).toNat) s))

/-- `FX0A` (R183): a poll; the least pressed key. -/
def execLdVxK (x : Reg) (s : State) : Result :=
  match leastKey s.port.keys with
  | none => waiting s
  | some k => normal (advance (writeV s x (BitVec.ofNat 8 k)))

/-- `FX07` (R184): the value before this cycle's tick. -/
def execLdVxDT (x : Reg) (s : State) : Result := normal (advance (writeV s x s.DT))

/-- `FX15` (R185). -/
def execLdDTVx (x : Reg) (s : State) : Result := normal (advance (setDT s (readV s x)))

/-- `FX18` (R186). -/
def execLdSTVx (x : Reg) (s : State) : Result := normal (advance (setST s (readV s x)))

end Sys2Proof.Machine
end

