-- ==== Sys2Proof/Machine/HostOps.lean ====
section
/-! DEFINITION. Sys2Proof/Machine/HostOps.lean: what the host can do to the machine between cycles (R235): `reset()`, `loadProgram()`, presenting inputs. -/

namespace Sys2Proof.Machine

/-- `reset()` from any state (R230), which installs the machine's `FONT`.
It does not touch the `keys` and `rnd` inputs, which are not state of the core. -/
def hostReset (font : Font) (s : State) : State :=
  { State.resetWith font with port := s.port, upcoming := s.upcoming, drawn := s.drawn }

/-- `loadProgram(bytes)` (R201, R232): the bytes at 0x200 up, or the load fails and nothing changes. -/
def loadProgram (bytes : List Byte) (s : State) : Result :=
  if Config.progMax < bytes.length then .fault (.programTooLarge bytes.length)
  else .next (storeBytes s Config.progBase bytes)

/-- The host presents these inputs for the coming cycle (R34, R35, R236). -/
def presentInputs (i : Inputs) (s : State) : State := { s with port := i }

/-- The host settles the inputs of the cycles after the coming one. -/
def planInputs (l : List Inputs) (s : State) : State := { s with upcoming := l }

end Sys2Proof.Machine
end

