-- ==== Sys2Proof/Machine/Step.lean ====
section
/-! DEFINITION. Sys2Proof/Machine/Step.lean: one cycle (R90, R103, R104), and placing an instruction where the next fetch reads it. -/

namespace Sys2Proof.Machine

/-- One cycle (R104): halted test, fetch, decode, execute, tick. -/
def step (s : State) : Host.Outcome State Fault Refusal :=
  if s.halted then .next (haltedCycle s)
  else
    match fetch s with
    | .error a => .next (endCycle (fetchErrorCycle a s))
    | .ok w =>
      match decode w with
      | .error _ => .next (endCycle (unknownCycle w s))
      | .ok i => mapNext endCycle (exec i s)

/-- `s` with the table word `w` of `nbits` bits stored where the next fetch reads, so that the next step runs it.
It stands for the host's `loadProgram` (log entry 7). A fetch needs `pc ≤ 4094` and a machine that is not halted; neither is changed here. -/
def State.withFetchWord (s : State) (nbits w : Nat) : State :=
  placeWord s (BitVec.ofNat 16 (w % 2 ^ nbits))

end Sys2Proof.Machine
end

