-- ==== Sys2Proof/Safety.lean ====
section
/-! DEFINITION. Sys2Proof/Safety.lean: what counts as a clean run, and the terms the statements are written in: frames, the two error outcomes, the host's turn, sprite hits, and who may write a register. -/

namespace Sys2Proof.Machine

/-- A clean state: no fatal error and no reported one since reset.
The recommended reading of 93_implementation_defined.md (the note after part 1): `halted = 0` and `event = None` in every cycle. -/
abbrev Safe (s : State) : Prop := s.halted = false ∧ s.reported = false

/-- Parked (R247 (b)): the word at `pc` is a jump to `pc`. -/
def Parked (s : State) : Prop :=
  s.halted = false ∧ ∃ nnn : Addr12, s.pc = nnn.setWidth 16 ∧ fetch s = .ok (0x1000#16 ||| nnn.setWidth 16)

/-- No return address the machine can hold leads past 0x1000, and `pc` never passes 0x10FE (R24, R111, R114). -/
def BoundedTargets (s : State) : Prop :=
  s.pc.toNat ≤ 0x10FE ∧ ∀ (i : Nat) (h : i < 16), s.stack[i].toNat ≤ 0x1000

/-! ## Frames: the only places in which `t` may differ from `s` -/

/-- Every byte of memory reads as before. -/
def SameMemory (s t : State) : Prop := ∀ a, memRead t.mem a = memRead s.mem a

/-- Nothing but general registers, `pc` and the outputs. -/
def FrameV (s t : State) : Prop := t = { s with V := t.V, pc := t.pc, out := t.out } ∧ SameMemory s t

/-- Nothing but `pc` and the outputs. -/
def FramePc (s t : State) : Prop := t = { s with pc := t.pc, out := t.out } ∧ SameMemory s t

/-- Nothing but the stack, `sp`, `pc` and the outputs. -/
def FrameStack (s t : State) : Prop := t = { s with stack := t.stack, sp := t.sp, pc := t.pc, out := t.out } ∧ SameMemory s t

/-- Nothing but `I`, `pc` and the outputs. -/
def FrameI (s t : State) : Prop := t = { s with I := t.I, pc := t.pc, out := t.out } ∧ SameMemory s t

/-- Nothing but the delay timer, `pc` and the outputs. -/
def FrameDT (s t : State) : Prop := t = { s with DT := t.DT, pc := t.pc, out := t.out } ∧ SameMemory s t

/-- Nothing but the sound timer, `pc` and the outputs. -/
def FrameST (s t : State) : Prop := t = { s with ST := t.ST, pc := t.pc, out := t.out } ∧ SameMemory s t

/-- Nothing but the display, general registers, `pc` and the outputs. -/
def FrameDraw (s t : State) : Prop := t = { s with display := t.display, V := t.V, pc := t.pc, out := t.out } ∧ SameMemory s t

/-- Nothing but memory, `pc` and the outputs. -/
def FrameMem (s t : State) : Prop := t = { s with mem := t.mem, pc := t.pc, out := t.out }

/-! ## The two error outcomes -/

/-- A reported error (R94 (b), R99): `pc + 2`, the event, `status = Completed`; nothing else but the model's mark. -/
def ReportedBy (e : Event) (s t : State) : Prop :=
  t = { s with pc := s.pc + 2, reported := true,
               out := { status := .completed, event := some e, drawOccurred := false, beep := false } }

/-- A fatal error (R94 (d), R102): `halted`, the event, `status = Halted`; nothing else but the model's mark. -/
def FatalBy (space : Space) (addr : Nat) (s t : State) : Prop :=
  t = { s with halted := true, reported := true,
               out := { status := .halted, event := some (.addressOutOfRange space addr), drawOccurred := false, beep := false } }

/-! ## The host's turn at the end of a cycle -/

/-- `t` is `u` with the next cycle's inputs presented: the next of `u`'s own list, else free values; nothing else differs (R34, R35, R236). -/
def InputsPresented (u t : State) : Prop :=
  t = { u with port := t.port, upcoming := t.upcoming, drawn := t.drawn } ∧
  (∀ i rest, u.upcoming = i :: rest → t.port = i ∧ t.upcoming = rest ∧ t.drawn = u.drawn) ∧
  (u.upcoming = [] → t.port = { keys := Config.hostKeys u.drawn, rnd := Config.hostRnd u.drawn } ∧
    t.upcoming = [] ∧ t.drawn = u.drawn + 1)

/-! ## Sprites -/

/-- The sprite of `n` rows at `I`, drawn at the column in `V[x]` and the row in `V[y]`, has a set bit that lands on pixel `p`.
The index is R172's: `((cy + row) * 64 + cx + col) mod 2048`, exact integers before the mod, bit 7 of a row leftmost. -/
def Hits (s : State) (x y : Reg) (n p : Nat) : Prop :=
  ∃ row col, row < n ∧ col < 8 ∧ (memRead s.mem (s.I.toNat + row)).getLsbD (7 - col) = true ∧
    ((s.V[y].toNat + row) * 64 + s.V[x].toNat + col) % 2048 = p

/-! ## Who may write what (R38) -/

/-- The instructions and registers of the V column of R38: `w x`, `w F`, `w 0..x`. -/
def mayWriteReg (i : Instr) (j : Reg) : Prop :=
  match i with
  | .ldImm x _ | .addImm x _ | .rnd x _ | .ldReg x _ | .orReg x _ | .andReg x _ | .xorReg x _
  | .ldVxDT x | .ldVxK x => j = x
  | .addReg x _ | .subReg x _ | .subnReg x _ | .shr x _ | .shl x _ => j = x ∨ j = regF
  | .drw _ _ _ => j = regF
  | .loadRegs x => j ≤ x
  | .cls | .ret | .jp _ | .call _ | .seImm _ _ | .sneImm _ _ | .seReg _ _ | .sneReg _ _ | .ldI _ | .jpV0 _
  | .skp _ | .sknp _ | .ldDTVx _ | .ldSTVx _ | .addI _ | .ldF _ | .ldB _ | .storeRegs _ => False

end Sys2Proof.Machine
end

