-- ==== Sys2Proof/Certificates/Slice0/Obligations.lean ====
section
/-! DEFINITION. Sys2Proof/Certificates/Slice0/Obligations.lean: the statements for the provers, one def Obligations.<Name> : Prop each. The spec rules each formalises are cited in its docstring and in OBLIGATIONS.json. -/

open Sys2Proof Sys2Proof.Machine

/-! ## Encoding -/

/-- Words written out from the spec's encodings (R84, and the vectors V-E1 to V-E11 of 95_test_vectors.md 2.0) decode to the instructions they stand for. -/
def Obligations.SpecExampleWordsDecode : Prop :=
  decode 0x8374#16 = .ok (.addReg 3 7) ∧ decode 0xD125#16 = .ok (.drw 1 2 5) ∧ decode 0x6A2C#16 = .ok (.ldImm 10 0x2C) ∧
  decode 0x12F0#16 = .ok (.jp 0x2F0) ∧ decode 0xFF55#16 = .ok (.storeRegs 15) ∧ decode 0xD7A5#16 = .ok (.drw 7 10 5) ∧
  decode 0x00E0#16 = .ok .cls ∧ decode 0x00EE#16 = .ok .ret ∧ decode 0x5120#16 = .ok (.seReg 1 2) ∧
  decode 0x9120#16 = .ok (.sneReg 1 2) ∧ decode 0xE29E#16 = .ok (.skp 2) ∧ decode 0xE2A1#16 = .ok (.sknp 2) ∧
  decode 0xF30A#16 = .ok (.ldVxK 3) ∧ decode 0x5121#16 = .error (.unrecognized 0x5121#16) ∧
  decode 0x0000#16 = .error (.unrecognized 0x0000#16) ∧ decode 0x8128#16 = .error (.unrecognized 0x8128#16) ∧
  decode 0xE29F#16 = .error (.unrecognized 0xE29F#16) ∧ decode 0xF3FF#16 = .error (.unrecognized 0xF3FF#16)

/-- R71: the fields the decoder hands to the instructions are the masked and shifted bits of the word. -/
def Obligations.FieldsAreMaskedShiftedBits : Prop :=
  ∀ w : Word,
    (fieldX w).val = ((w &&& 0x0F00#16) >>> 8).toNat ∧ (fieldY w).val = ((w &&& 0x00F0#16) >>> 4).toNat ∧
    (fieldN w).val = (w &&& 0x000F#16).toNat ∧ (fieldNN w).toNat = (w &&& 0x00FF#16).toNat ∧
    (fieldNNN w).toNat = (w &&& 0x0FFF#16).toNat ∧ fieldOp w = ((w &&& 0xF000#16) >>> 12).toNat ∧
    (fieldNN w).toNat = (fieldY w).val * 16 + (fieldN w).val ∧
    (fieldNNN w).toNat = (fieldX w).val * 256 + (fieldNN w).toNat

/-- R75: a word is an instruction of a row exactly when `w & mask = match`; the decoder yields no other instruction, and there are 34 rows. -/
def Obligations.DecodeSelectsExactlyTheTableRow : Prop :=
  opcodeTable.length = 34 ∧
  (∀ (w : Word) (r : Row), r ∈ opcodeTable →
    (w &&& r.mask = r.pattern ↔ ∃ i, decode w = .ok i ∧ rowOf i = r)) ∧
  (∀ (w : Word) (i : Instr), decode w = .ok i → rowOf i ∈ opcodeTable)

/-- The recognized values of each family's key (R74, where the keys of families 0, 5 and 9 are the spec's decision D1); no word lies on two rows. -/
def Obligations.RecognizedKeysOfEachFamily : Prop :=
  (∀ w : Word, (∃ i, decode w = .ok i) ↔
    (w.toNat / 4096 = 0x0 ∧ (w = 0x00E0#16 ∨ w = 0x00EE#16)) ∨
    w.toNat / 4096 ∈ [0x1, 0x2, 0x3, 0x4, 0x6, 0x7, 0xA, 0xB, 0xC, 0xD] ∨
    (w.toNat / 4096 = 0x5 ∧ w.toNat % 16 = 0x0) ∨
    (w.toNat / 4096 = 0x8 ∧ w.toNat % 16 ∈ [0x0, 0x1, 0x2, 0x3, 0x4, 0x5, 0x6, 0x7, 0xE]) ∨
    (w.toNat / 4096 = 0x9 ∧ w.toNat % 16 = 0x0) ∨
    (w.toNat / 4096 = 0xE ∧ w.toNat % 256 ∈ [0x9E, 0xA1]) ∨
    (w.toNat / 4096 = 0xF ∧ w.toNat % 256 ∈ [0x07, 0x0A, 0x15, 0x18, 0x1E, 0x29, 0x33, 0x55, 0x65])) ∧
  (∀ (w : Word) (r r' : Row), r ∈ opcodeTable → r' ∈ opcodeTable →
    w &&& r.mask = r.pattern → w &&& r'.mask = r'.pattern → r = r')

/-- R71, R84: decoding the word of an instruction gives it back, with every operand at every value its field admits. -/
def Obligations.DecodeOfEncodeIsTheInstruction : Prop :=
  ∀ i : Instr, decode (encode i) = .ok i

/-- R71, R75, R84: the word a decoded instruction encodes to is the word it came from, so no bit of a recognized word is dropped. -/
def Obligations.EncodeOfDecodedIsTheWord : Prop :=
  ∀ (w : Word) (i : Instr), decode w = .ok i → encode i = w

/-- R71, R82, R84: an operand list is assembled exactly when every number fits its field; the word then decodes to the row's instruction,
and each number the row's format uses is found in its own field of the word. -/
def Obligations.AssembledOperandsDecodeToTheRow : Prop :=
  ∀ (r : Row) (o : RawOperands), r ∈ opcodeTable →
    (o.wellFormed r.format = false → assemble r o = none) ∧
    (o.wellFormed r.format = true → ∃ w i, assemble r o = some w ∧ decode w = .ok i ∧ rowOf i = r ∧ encode i = w ∧
      (r.format = .A → (fieldNNN w).toNat = o.nnn) ∧
      (r.format = .I → (fieldX w).val = o.x ∧ (fieldNN w).toNat = o.nn) ∧
      (r.format = .R → (fieldX w).val = o.x ∧ (fieldY w).val = o.y) ∧
      (r.format = .D → (fieldX w).val = o.x ∧ (fieldY w).val = o.y ∧ (fieldN w).val = o.n) ∧
      (r.format = .X → (fieldX w).val = o.x))

/-! ## Control transfer and skips -/

/-- `00EE` (R111). That `pc` moves on by 2 in the underflow cycle is the spec's decision D7; the mark `reported` is the model's (log entry 4). -/
def Obligations.ReturnPopsTheStack : Prop :=
  (∀ w : Word, w &&& 0xFFFF#16 = 0x00EE#16 → decode w = .ok .ret) ∧
  (∀ s : State, 0 < s.sp.val → ∃ t, exec .ret s = .next t ∧ s.stack[s.sp.val - 1]? = some t.pc ∧ t.stack = s.stack ∧
    t.sp.val = s.sp.val - 1 ∧ t.out = quietOutputs ∧ FrameStack s t) ∧
  (∀ s : State, s.sp.val = 0 → ∃ t, exec .ret s = .next t ∧ ReportedBy (.stackUnderflow s.pc) s t)

/-- R112, `1NNN`. -/
def Obligations.JumpSetsPc : Prop :=
  (∀ w : Word, w &&& 0xF000#16 = 0x1000#16 → decode w = .ok (.jp (fieldNNN w))) ∧
  ∀ (nnn : Addr12) (s : State), ∃ t, exec (.jp nnn) s = .next t ∧ t.pc.toNat = nnn.toNat ∧ t.out = quietOutputs ∧ FramePc s t

/-- `2NNN` (R113). That a call on a full stack falls through is the spec's decision D7; the mark `reported` is the model's (log entry 4). -/
def Obligations.CallPushesReturnAddress : Prop :=
  (∀ w : Word, w &&& 0xF000#16 = 0x2000#16 → decode w = .ok (.call (fieldNNN w))) ∧
  (∀ (nnn : Addr12) (s : State), s.sp.val < 16 → ∃ t, exec (.call nnn) s = .next t ∧
    t.stack[s.sp.val]? = some (s.pc + 2) ∧ (∀ i, i ≠ s.sp.val → t.stack[i]? = s.stack[i]?) ∧
    t.sp.val = s.sp.val + 1 ∧ t.pc.toNat = nnn.toNat ∧ t.out = quietOutputs ∧ FrameStack s t) ∧
  (∀ (nnn : Addr12) (s : State), s.sp.val = 16 → ∃ t, exec (.call nnn) s = .next t ∧ ReportedBy (.stackOverflow s.pc) s t)

/-- R114, `BNNN`: the sum is exact, neither masked nor wrapped. -/
def Obligations.JumpWithOffsetAddsVZero : Prop :=
  (∀ w : Word, w &&& 0xF000#16 = 0xB000#16 → decode w = .ok (.jpV0 (fieldNNN w))) ∧
  ∀ (nnn : Addr12) (s : State), ∃ t, exec (.jpV0 nnn) s = .next t ∧ t.pc.toNat = nnn.toNat + s.V[0].toNat ∧
    t.out = quietOutputs ∧ FramePc s t

/-- R115 and R116, `3XNN` and `4XNN`. -/
def Obligations.SkipOnImmediate : Prop :=
  (∀ w : Word, w &&& 0xF000#16 = 0x3000#16 → decode w = .ok (.seImm (fieldX w) (fieldNN w))) ∧
  (∀ w : Word, w &&& 0xF000#16 = 0x4000#16 → decode w = .ok (.sneImm (fieldX w) (fieldNN w))) ∧
  (∀ (x : Reg) (nn : Byte) (s : State), ∃ t, exec (.seImm x nn) s = .next t ∧
    (s.V[x] = nn → t.pc = s.pc + 4) ∧ (s.V[x] ≠ nn → t.pc = s.pc + 2) ∧ t.out = quietOutputs ∧ FramePc s t) ∧
  (∀ (x : Reg) (nn : Byte) (s : State), ∃ t, exec (.sneImm x nn) s = .next t ∧
    (s.V[x] ≠ nn → t.pc = s.pc + 4) ∧ (s.V[x] = nn → t.pc = s.pc + 2) ∧ t.out = quietOutputs ∧ FramePc s t)

/-- `5XY0` (R117) and `9XY0` (R118). That the same words with another low nibble are unrecognized is the spec's decision D1 (R74, log entry 11). -/
def Obligations.SkipOnRegisters : Prop :=
  (∀ w : Word, w &&& 0xF00F#16 = 0x5000#16 → decode w = .ok (.seReg (fieldX w) (fieldY w))) ∧
  (∀ w : Word, w &&& 0xF00F#16 = 0x9000#16 → decode w = .ok (.sneReg (fieldX w) (fieldY w))) ∧
  (∀ w : Word, w &&& 0xF000#16 = 0x5000#16 ∨ w &&& 0xF000#16 = 0x9000#16 → w &&& 0x000F#16 ≠ 0 → decode w = .error (.unrecognized w)) ∧
  (∀ (x y : Reg) (s : State), ∃ t, exec (.seReg x y) s = .next t ∧
    (s.V[x] = s.V[y] → t.pc = s.pc + 4) ∧ (s.V[x] ≠ s.V[y] → t.pc = s.pc + 2) ∧ t.out = quietOutputs ∧ FramePc s t) ∧
  (∀ (x y : Reg) (s : State), ∃ t, exec (.sneReg x y) s = .next t ∧
    (s.V[x] ≠ s.V[y] → t.pc = s.pc + 4) ∧ (s.V[x] = s.V[y] → t.pc = s.pc + 2) ∧ t.out = quietOutputs ∧ FramePc s t)

/-- R111, R113 (and S5 of 95_test_vectors.md): a call, and a return executed after anything that leaves stack and `sp` as the call left them,
comes back to the instruction after the call with `sp` as before it. -/
def Obligations.CallThenReturnComesBack : Prop :=
  ∀ (nnn : Addr12) (s : State), s.sp.val < 16 → ∃ t, exec (.call nnn) s = .next t ∧
    ∀ u : State, u.stack = t.stack → u.sp = t.sp → ∃ v, exec .ret u = .next v ∧ v.pc = s.pc + 2 ∧ v.sp = s.sp

/-! ## Register load, arithmetic, logic, shift, random -/

/-- R131, `6XNN`. -/
def Obligations.LoadImmediateSetsRegister : Prop :=
  (∀ w : Word, w &&& 0xF000#16 = 0x6000#16 → decode w = .ok (.ldImm (fieldX w) (fieldNN w))) ∧
  ∀ (x : Reg) (nn : Byte) (s : State), ∃ t, exec (.ldImm x nn) s = .next t ∧
    (∀ j : Reg, t.V[j] = if j = x then nn else s.V[j]) ∧ t.pc = s.pc + 2 ∧ t.out = quietOutputs ∧ FrameV s t

/-- R132, `7XNN`: modulo 256, `V[0xF]` kept. -/
def Obligations.AddImmediateWrapsWithoutFlag : Prop :=
  (∀ w : Word, w &&& 0xF000#16 = 0x7000#16 → decode w = .ok (.addImm (fieldX w) (fieldNN w))) ∧
  ∀ (x : Reg) (nn : Byte) (s : State), ∃ t, exec (.addImm x nn) s = .next t ∧
    t.V[x].toNat = (s.V[x].toNat + nn.toNat) % 256 ∧ (∀ j : Reg, j ≠ x → t.V[j] = s.V[j]) ∧
    t.pc = s.pc + 2 ∧ t.out = quietOutputs ∧ FrameV s t

/-- R133, `8XY0`. -/
def Obligations.CopyRegister : Prop :=
  (∀ w : Word, w &&& 0xF00F#16 = 0x8000#16 → decode w = .ok (.ldReg (fieldX w) (fieldY w))) ∧
  ∀ (x y : Reg) (s : State), ∃ t, exec (.ldReg x y) s = .next t ∧
    (∀ j : Reg, t.V[j] = if j = x then s.V[y] else s.V[j]) ∧ t.pc = s.pc + 2 ∧ t.out = quietOutputs ∧ FrameV s t

/-- `8XY1`, `8XY2`, `8XY3` (R134, R135, R136), bit by bit. That `V[0xF]` is not reset is the spec's decision D25 (log entry 20). -/
def Obligations.BitwiseLogicWithoutFlag : Prop :=
  (∀ w : Word, w &&& 0xF00F#16 = 0x8001#16 → decode w = .ok (.orReg (fieldX w) (fieldY w))) ∧
  (∀ w : Word, w &&& 0xF00F#16 = 0x8002#16 → decode w = .ok (.andReg (fieldX w) (fieldY w))) ∧
  (∀ w : Word, w &&& 0xF00F#16 = 0x8003#16 → decode w = .ok (.xorReg (fieldX w) (fieldY w))) ∧
  ∀ (x y : Reg) (s : State),
    (∃ t, exec (.orReg x y) s = .next t ∧ (∀ k, t.V[x].getLsbD k = (s.V[x].getLsbD k || s.V[y].getLsbD k)) ∧
      (∀ j : Reg, j ≠ x → t.V[j] = s.V[j]) ∧ t.pc = s.pc + 2 ∧ t.out = quietOutputs ∧ FrameV s t) ∧
    (∃ t, exec (.andReg x y) s = .next t ∧ (∀ k, t.V[x].getLsbD k = (s.V[x].getLsbD k && s.V[y].getLsbD k)) ∧
      (∀ j : Reg, j ≠ x → t.V[j] = s.V[j]) ∧ t.pc = s.pc + 2 ∧ t.out = quietOutputs ∧ FrameV s t) ∧
    (∃ t, exec (.xorReg x y) s = .next t ∧ (∀ k, t.V[x].getLsbD k = (s.V[x].getLsbD k ^^ s.V[y].getLsbD k)) ∧
      (∀ j : Reg, j ≠ x → t.V[j] = s.V[j]) ∧ t.pc = s.pc + 2 ∧ t.out = quietOutputs ∧ FrameV s t)

/-- `8XY4` (R137): the exact sum decides the carry. That with `x` or `y` equal to 0xF both operands are the old values, and that with `x = 0xF` the result survives,
is the spec's decision D11 (R12, R130, log entry 17). -/
def Obligations.AddRegistersSetsCarry : Prop :=
  (∀ w : Word, w &&& 0xF00F#16 = 0x8004#16 → decode w = .ok (.addReg (fieldX w) (fieldY w))) ∧
  ∀ (x y : Reg) (s : State), ∃ t, exec (.addReg x y) s = .next t ∧
    t.V[x].toNat = (s.V[x].toNat + s.V[y].toNat) % 256 ∧
    (x ≠ 15 → t.V[15].toNat = if s.V[x].toNat + s.V[y].toNat > 255 then 1 else 0) ∧
    (∀ j : Reg, j ≠ x → j ≠ 15 → t.V[j] = s.V[j]) ∧ t.pc = s.pc + 2 ∧ t.out = quietOutputs ∧ FrameV s t

/-- `8XY5` (R138). That with `x` or `y` equal to 0xF both operands are the old values, and that with `x = 0xF` the result survives,
is the spec's decision D11 (R12, R130, log entry 17). -/
def Obligations.SubtractRegistersSetsNoBorrow : Prop :=
  (∀ w : Word, w &&& 0xF00F#16 = 0x8005#16 → decode w = .ok (.subReg (fieldX w) (fieldY w))) ∧
  ∀ (x y : Reg) (s : State), ∃ t, exec (.subReg x y) s = .next t ∧
    (t.V[x].toNat : Int) = ((s.V[x].toNat : Int) - s.V[y].toNat) % 256 ∧
    (x ≠ 15 → t.V[15].toNat = if s.V[x].toNat < s.V[y].toNat then 0 else 1) ∧
    (∀ j : Reg, j ≠ x → j ≠ 15 → t.V[j] = s.V[j]) ∧ t.pc = s.pc + 2 ∧ t.out = quietOutputs ∧ FrameV s t

/-- `8XY6` (R139), whatever `y` is. That with `x = 0xF` the shifted value survives is the spec's decision D11 (R12, R130, log entry 17). -/
def Obligations.ShiftRightKeepsBitOut : Prop :=
  (∀ w : Word, w &&& 0xF00F#16 = 0x8006#16 → decode w = .ok (.shr (fieldX w) (fieldY w))) ∧
  ∀ (x y : Reg) (s : State), ∃ t, exec (.shr x y) s = .next t ∧
    t.V[x].toNat = s.V[x].toNat / 2 ∧ (x ≠ 15 → t.V[15].toNat = s.V[x].toNat % 2) ∧
    (∀ j : Reg, j ≠ x → j ≠ 15 → t.V[j] = s.V[j]) ∧ t.pc = s.pc + 2 ∧ t.out = quietOutputs ∧ FrameV s t

/-- `8XY7` (R140). That with `x` or `y` equal to 0xF both operands are the old values, and that with `x = 0xF` the result survives,
is the spec's decision D11 (R12, R130, log entry 17). -/
def Obligations.ReverseSubtractSetsNoBorrow : Prop :=
  (∀ w : Word, w &&& 0xF00F#16 = 0x8007#16 → decode w = .ok (.subnReg (fieldX w) (fieldY w))) ∧
  ∀ (x y : Reg) (s : State), ∃ t, exec (.subnReg x y) s = .next t ∧
    (t.V[x].toNat : Int) = ((s.V[y].toNat : Int) - s.V[x].toNat) % 256 ∧
    (x ≠ 15 → t.V[15].toNat = if s.V[y].toNat < s.V[x].toNat then 0 else 1) ∧
    (∀ j : Reg, j ≠ x → j ≠ 15 → t.V[j] = s.V[j]) ∧ t.pc = s.pc + 2 ∧ t.out = quietOutputs ∧ FrameV s t

/-- `8XYE` (R141), whatever `y` is. That with `x = 0xF` the shifted value survives is the spec's decision D11 (R12, R130, log entry 17). -/
def Obligations.ShiftLeftKeepsBitOut : Prop :=
  (∀ w : Word, w &&& 0xF00F#16 = 0x800E#16 → decode w = .ok (.shl (fieldX w) (fieldY w))) ∧
  ∀ (x y : Reg) (s : State), ∃ t, exec (.shl x y) s = .next t ∧
    t.V[x].toNat = s.V[x].toNat * 2 % 256 ∧ (x ≠ 15 → t.V[15].toNat = s.V[x].toNat / 128) ∧
    (∀ j : Reg, j ≠ x → j ≠ 15 → t.V[j] = s.V[j]) ∧ t.pc = s.pc + 2 ∧ t.out = quietOutputs ∧ FrameV s t

/-- `CXNN` (R142) for every `rnd` input, which is a free input by the spec's decision D14 and a port of the state by log entry 1. -/
def Obligations.RandomIsMaskedInput : Prop :=
  (∀ w : Word, w &&& 0xF000#16 = 0xC000#16 → decode w = .ok (.rnd (fieldX w) (fieldNN w))) ∧
  ∀ (x : Reg) (nn : Byte) (s : State), ∃ t, exec (.rnd x nn) s = .next t ∧
    (∀ k, t.V[x].getLsbD k = (s.port.rnd.getLsbD k && nn.getLsbD k)) ∧
    (∀ j : Reg, j ≠ x → t.V[j] = s.V[j]) ∧ t.pc = s.pc + 2 ∧ t.out = quietOutputs ∧ FrameV s t

/-! ## Index register, BCD, register store and load -/

/-- R151, `ANNN`. -/
def Obligations.LoadIndexZeroExtends : Prop :=
  (∀ w : Word, w &&& 0xF000#16 = 0xA000#16 → decode w = .ok (.ldI (fieldNNN w))) ∧
  ∀ (nnn : Addr12) (s : State), ∃ t, exec (.ldI nnn) s = .next t ∧ t.I.toNat = nnn.toNat ∧
    t.pc = s.pc + 2 ∧ t.out = quietOutputs ∧ FrameI s t

/-- `FX1E` (R152): modulo 65536, no flag. The width 16 is the spec's decision D16. -/
def Obligations.AddToIndexWrapsAtSixteenBits : Prop :=
  (∀ w : Word, w &&& 0xF0FF#16 = 0xF01E#16 → decode w = .ok (.addI (fieldX w))) ∧
  ∀ (x : Reg) (s : State), ∃ t, exec (.addI x) s = .next t ∧ t.I.toNat = (s.I.toNat + s.V[x].toNat) % 65536 ∧
    t.pc = s.pc + 2 ∧ t.out = quietOutputs ∧ FrameI s t

/-- R153, `FX29`: all 8 bits of `V[x]`. -/
def Obligations.GlyphAddressIsFiveTimesTheByte : Prop :=
  (∀ w : Word, w &&& 0xF0FF#16 = 0xF029#16 → decode w = .ok (.ldF (fieldX w))) ∧
  ∀ (x : Reg) (s : State), ∃ t, exec (.ldF x) s = .next t ∧ t.I.toNat = s.V[x].toNat * 5 ∧
    t.pc = s.pc + 2 ∧ t.out = quietOutputs ∧ FrameI s t

/-- `FX33` (R154). The precise fatal error is the spec's decision D3. The premise on memory is the invariant of StepKeepsMemoryCanonical. -/
def Obligations.StoreBcdDigits : Prop :=
  (∀ w : Word, w &&& 0xF0FF#16 = 0xF033#16 → decode w = .ok (.ldB (fieldX w))) ∧
  (∀ (x : Reg) (s : State), Memory.wf s.mem = true → s.I.toNat + 2 ≤ 4095 → ∃ t, exec (.ldB x) s = .next t ∧
    (memRead t.mem s.I.toNat).toNat = s.V[x].toNat / 100 ∧
    (memRead t.mem (s.I.toNat + 1)).toNat = s.V[x].toNat / 10 % 10 ∧
    (memRead t.mem (s.I.toNat + 2)).toNat = s.V[x].toNat % 10 ∧
    (∀ b, effAddr s 0 = b → ∀ a, a < b ∨ b + 3 ≤ a → memRead t.mem a = memRead s.mem a) ∧
    t.pc = s.pc + 2 ∧ t.out = quietOutputs ∧ FrameMem s t) ∧
  (∀ (x : Reg) (s : State), s.I.toNat + 2 > 4095 → ∃ t, exec (.ldB x) s = .next t ∧ FatalBy .data (max s.I.toNat 4096) s t)

/-- `FX55` (R155). The precise fatal error is the spec's decision D3. The premise on memory is the invariant of StepKeepsMemoryCanonical. -/
def Obligations.StoreRegisterBlock : Prop :=
  (∀ w : Word, w &&& 0xF0FF#16 = 0xF055#16 → decode w = .ok (.storeRegs (fieldX w))) ∧
  (∀ (x : Reg) (s : State), Memory.wf s.mem = true → s.I.toNat + x.val ≤ 4095 → ∃ t, exec (.storeRegs x) s = .next t ∧
    (∀ i : Reg, i ≤ x → memRead t.mem (s.I.toNat + i.val) = s.V[i]) ∧
    (∀ b, effAddr s 0 = b → ∀ a, a < b ∨ b + (x.val + 1) ≤ a → memRead t.mem a = memRead s.mem a) ∧
    t.pc = s.pc + 2 ∧ t.out = quietOutputs ∧ FrameMem s t) ∧
  (∀ (x : Reg) (s : State), s.I.toNat + x.val > 4095 → ∃ t, exec (.storeRegs x) s = .next t ∧
    FatalBy .data (max s.I.toNat 4096) s t)

/-- `FX65` (R156). The precise fatal error is the spec's decision D3. -/
def Obligations.LoadRegisterBlock : Prop :=
  (∀ w : Word, w &&& 0xF0FF#16 = 0xF065#16 → decode w = .ok (.loadRegs (fieldX w))) ∧
  (∀ (x : Reg) (s : State), s.I.toNat + x.val ≤ 4095 → ∃ t, exec (.loadRegs x) s = .next t ∧
    (∀ i : Reg, t.V[i] = if i ≤ x then memRead s.mem (s.I.toNat + i.val) else s.V[i]) ∧
    t.pc = s.pc + 2 ∧ t.out = quietOutputs ∧ FrameV s t) ∧
  (∀ (x : Reg) (s : State), s.I.toNat + x.val > 4095 → ∃ t, exec (.loadRegs x) s = .next t ∧
    FatalBy .data (max s.I.toNat 4096) s t)

/-! ## Display -/

/-- `00E0` (R171). That it asserts `draw_occurred` is the spec's decision D13. -/
def Obligations.ClearDisplayZeroesEveryPixel : Prop :=
  (∀ w : Word, w &&& 0xFFFF#16 = 0x00E0#16 → decode w = .ok .cls) ∧
  ∀ s : State, ∃ t, exec .cls s = .next t ∧ (∀ p, p < 2048 → pixel t p = false) ∧ t.V = s.V ∧ t.pc = s.pc + 2 ∧
    t.out = { quietOutputs with drawOccurred := true } ∧ FrameDraw s t

/-- R172, `DXYN`: a pixel is flipped exactly when a set sprite bit lands on it; the flag is 1 exactly when one of those pixels was set;
out of range nothing changes but `halted` (the spec's decisions D3 and D12). -/
def Obligations.DrawXorsTheSprite : Prop :=
  (∀ w : Word, w &&& 0xF000#16 = 0xD000#16 → decode w = .ok (.drw (fieldX w) (fieldY w) (fieldN w))) ∧
  (∀ (x y : Reg) (n : Height) (s : State), n.val = 0 ∨ s.I.toNat + n.val - 1 ≤ 4095 → ∃ t, exec (.drw x y n) s = .next t ∧
    (∀ p, p < 2048 → (pixel t p = true ↔ ¬ (pixel s p = true ↔ Hits s x y n.val p))) ∧
    ((∃ p, Hits s x y n.val p ∧ pixel s p = true) → t.V[15] = 1) ∧
    (¬ (∃ p, Hits s x y n.val p ∧ pixel s p = true) → t.V[15] = 0) ∧
    (∀ j : Reg, j ≠ 15 → t.V[j] = s.V[j]) ∧ t.pc = s.pc + 2 ∧
    t.out = { quietOutputs with drawOccurred := true } ∧ FrameDraw s t) ∧
  (∀ (x y : Reg) (n : Height) (s : State), n.val > 0 → s.I.toNat + n.val - 1 > 4095 → ∃ t, exec (.drw x y n) s = .next t ∧
    FatalBy .data (max s.I.toNat 4096) s t)

/-- What R174 derives: the same sprite drawn twice at the same location restores the display,
and the second flag is 1 exactly when the sprite has a set bit whose pixel was 0 before the first draw. -/
def Obligations.DrawingTwiceRestoresTheDisplay : Prop :=
  ∀ (x y : Reg) (n : Height) (s : State), n.val = 0 ∨ s.I.toNat + n.val - 1 ≤ 4095 →
    ∃ t, exec (.drw x y n) s = .next t ∧ ∀ u : State,
      u.display = t.display → u.mem = s.mem → u.I = s.I → u.V[x] = s.V[x] → u.V[y] = s.V[y] →
      ∃ v, exec (.drw x y n) u = .next v ∧ (∀ p, p < 2048 → pixel v p = pixel s p) ∧
        (v.V[15] = 1 ↔ ∃ p, Hits s x y n.val p ∧ pixel s p = false)

/-- What R173 derives: the column and the row a pixel index stands for: past column 63 the sprite goes on one row further down, and rows wrap modulo 32. -/
def Obligations.SpriteWrapIsLinear : Prop :=
  ∀ cx cy row col : Nat,
    pixelIndex cx cy row col % 64 = (cx + col) % 64 ∧
    pixelIndex cx cy row col / 64 = (cy + row + (cx + col) / 64) % 32

/-! ## Keys and timers -/

/-- R181 and R182, `EX9E` and `EXA1`: the key number is the value of `V[x]`; above 15 the cycle is fatal (R187, the spec's decision D4). -/
def Obligations.KeySkips : Prop :=
  (∀ w : Word, w &&& 0xF0FF#16 = 0xE09E#16 → decode w = .ok (.skp (fieldX w))) ∧
  (∀ w : Word, w &&& 0xF0FF#16 = 0xE0A1#16 → decode w = .ok (.sknp (fieldX w))) ∧
  (∀ (x : Reg) (s : State), s.V[x].toNat ≤ 15 → ∃ t, exec (.skp x) s = .next t ∧
    t.pc = (if s.port.keys.getLsbD s.V[x].toNat = true then s.pc + 4 else s.pc + 2) ∧ t.out = quietOutputs ∧ FramePc s t) ∧
  (∀ (x : Reg) (s : State), s.V[x].toNat ≤ 15 → ∃ t, exec (.sknp x) s = .next t ∧
    t.pc = (if s.port.keys.getLsbD s.V[x].toNat = false then s.pc + 4 else s.pc + 2) ∧ t.out = quietOutputs ∧ FramePc s t) ∧
  (∀ (x : Reg) (s : State), s.V[x].toNat > 15 →
    (∃ t, exec (.skp x) s = .next t ∧ FatalBy .key s.V[x].toNat s t) ∧
    (∃ t, exec (.sknp x) s = .next t ∧ FatalBy .key s.V[x].toNat s t))

/-- `FX0A` (R183): with no key down nothing is written and the status is Waiting; else the least pressed key (the spec's decisions D9 and D10). -/
def Obligations.WaitForKeyTakesLeastKey : Prop :=
  (∀ w : Word, w &&& 0xF0FF#16 = 0xF00A#16 → decode w = .ok (.ldVxK (fieldX w))) ∧
  (∀ (x : Reg) (s : State), s.port.keys = 0 →
    exec (.ldVxK x) s = .next { s with out := { status := .waiting, event := none, drawOccurred := false, beep := false } }) ∧
  (∀ (x k : Reg) (s : State), s.port.keys.getLsbD k.val = true → (∀ i, i < k.val → s.port.keys.getLsbD i = false) →
    ∃ t, exec (.ldVxK x) s = .next t ∧ t.V[x].toNat = k.val ∧ (∀ j : Reg, j ≠ x → t.V[j] = s.V[j]) ∧
      t.pc = s.pc + 2 ∧ t.out = quietOutputs ∧ FrameV s t) ∧
  (∀ s : State, s.port.keys ≠ 0 →
    ∃ k : Reg, s.port.keys.getLsbD k.val = true ∧ ∀ i, i < k.val → s.port.keys.getLsbD i = false)

/-- `FX07` (R184): the value before this cycle's tick, which then takes `DT` one lower. -/
def Obligations.ReadDelayTimerBeforeTick : Prop :=
  (∀ w : Word, w &&& 0xF0FF#16 = 0xF007#16 → decode w = .ok (.ldVxDT (fieldX w))) ∧
  ∀ (x : Reg) (s : State), ∃ t, exec (.ldVxDT x) s = .next t ∧
    (∀ j : Reg, t.V[j] = if j = x then s.DT else s.V[j]) ∧ t.pc = s.pc + 2 ∧ t.out = quietOutputs ∧ FrameV s t ∧
    (s.halted = false → (endCycle t).V[x] = s.DT ∧ (endCycle t).DT.toNat = s.DT.toNat - 1)

/-- `FX15` (R185): the tick of the same cycle takes the new value one lower. -/
def Obligations.SetDelayTimer : Prop :=
  (∀ w : Word, w &&& 0xF0FF#16 = 0xF015#16 → decode w = .ok (.ldDTVx (fieldX w))) ∧
  ∀ (x : Reg) (s : State), ∃ t, exec (.ldDTVx x) s = .next t ∧ t.DT = s.V[x] ∧ t.pc = s.pc + 2 ∧ t.out = quietOutputs ∧
    FrameDT s t ∧ (s.halted = false → (endCycle t).DT.toNat = s.V[x].toNat - 1)

/-- `FX18` (R186): as FX15, and `beep` in this same cycle when `V[x] = 1`. -/
def Obligations.SetSoundTimer : Prop :=
  (∀ w : Word, w &&& 0xF0FF#16 = 0xF018#16 → decode w = .ok (.ldSTVx (fieldX w))) ∧
  ∀ (x : Reg) (s : State), ∃ t, exec (.ldSTVx x) s = .next t ∧ t.ST = s.V[x] ∧ t.pc = s.pc + 2 ∧ t.out = quietOutputs ∧
    FrameST s t ∧ (s.halted = false → (endCycle t).ST.toNat = s.V[x].toNat - 1 ∧
      ((endCycle t).out.beep = true ↔ s.V[x] = 1))

/-! ## The cycle -/

/-- The order of R103 and R104: when the word at `pc` decodes to `i`, a step is the execute phase of `i` followed by the end of the cycle:
the tick unless the execute phase was fatal, then the host's next inputs (log entry 1). -/
def Obligations.StepRunsTheDecodedInstruction : Prop :=
  ∀ (s u : State) (i : Instr), s.halted = false → s.pc.toNat ≤ 4094 →
    decode (wordOfBytes (memRead s.mem s.pc.toNat) (memRead s.mem (s.pc.toNat + 1))) = .ok i → exec i s = .next u →
    ∃ t, step s = .next t ∧ (u.halted = true → InputsPresented u t) ∧ (u.halted = false → InputsPresented (tick u) t)

/-- The word fetched (R91) is the big-endian pair at `pc`; that an odd `pc` fetches so too is the spec's decision D19 (log entry 19).
That from 4095 up the cycle commits nothing but `halted` is R102 by the spec's decisions D5 and D6 (log entry 13);
the mark `reported` it sets (log entry 4) and the inputs presented for the next cycle (log entry 1) are the model's. -/
def Obligations.FetchIsBigEndianAndBounded : Prop :=
  (∀ s : State, s.pc.toNat ≤ 4094 → ∃ w, fetch s = .ok w ∧
    w.toNat = (memRead s.mem s.pc.toNat).toNat * 256 + (memRead s.mem (s.pc.toNat + 1)).toNat) ∧
  (∀ s : State, s.halted = false → s.pc.toNat ≥ 4095 → ∃ u t, step s = .next t ∧
    FatalBy .fetch s.pc.toNat s u ∧ InputsPresented u t)

/-- An unrecognized word (R78) is reported and `pc` moves on by 2. That the timers tick in this cycle is the spec's decision D8 (R100, log entry 15);
the mark `reported` it sets (log entry 4) and the inputs presented for the next cycle (log entry 1) are the model's. -/
def Obligations.UnknownOpcodeIsReported : Prop :=
  ∀ (s : State) (w : Word), s.halted = false → fetch s = .ok w →
    (∀ r, r ∈ opcodeTable → w &&& r.mask ≠ r.pattern) →
    ∃ u t, step s = .next t ∧ ReportedBy (.unknownOpcode w s.pc) s u ∧ InputsPresented (tick u) t

/-- The fatal and the halted cycle of R102 (the spec's decisions D5 and D6; the mark `reported` is log entry 4): a fatal cycle commits nothing but `halted`, timers included; a halted cycle changes nothing and outputs Halted, None, 0, 0. -/
def Obligations.FatalAndHaltedCyclesCommitNothing : Prop :=
  (∀ s t : State, s.halted = false → step s = .next t → t.halted = true →
    ∃ space addr u, FatalBy space addr s u ∧ InputsPresented u t) ∧
  (∀ s : State, s.halted = true → ∃ t, step s = .next t ∧
    InputsPresented { s with out := { status := .halted, event := none, drawOccurred := false, beep := false } } t)

/-- The tick of R100 and R101 (in waiting and reported-error cycles the spec's decision D8): in every cycle that is not fatal and did not begin halted, both timers lose 1 unless 0, after the execute phase,
and `beep` is 1 exactly when that takes `ST` from 1 to 0; in no other cycle does either change. -/
def Obligations.TimersTickOncePerCycle : Prop :=
  (∀ s u : State, s.halted = false →
    ((∃ w i, fetch s = .ok w ∧ decode w = .ok i ∧ exec i s = .next u) ∨
      (∃ w e, fetch s = .ok w ∧ decode w = .error e ∧ u = unknownCycle w s)) → u.halted = false →
    ∃ t, step s = .next t ∧ t.DT.toNat = u.DT.toNat - 1 ∧ t.ST.toNat = u.ST.toNat - 1 ∧
      (t.out.beep = true ↔ u.ST = 1)) ∧
  (∀ s t : State, step s = .next t → t.halted = true → t.DT = s.DT ∧ t.ST = s.ST ∧ t.out.beep = false)

/-- The totality of R90: every execute phase and every cycle answers a next state. -/
def Obligations.EveryStepAnswersANextState : Prop :=
  (∀ (i : Instr) (s : State), ∃ t, exec i s = .next t) ∧ (∀ s : State, ∃ t, step s = .next t)

/-- What `status` says of the cycle (R95, the spec's decision D9). -/
def Obligations.StatusTellsHowTheCycleEnded : Prop :=
  ∀ s t : State, step s = .next t →
    (t.out.status = .halted ↔ s.halted = true ∨ t.halted = true) ∧
    (t.out.status = .waiting ↔ s.halted = false ∧ s.port.keys = 0 ∧
      ∃ w x, fetch s = .ok w ∧ decode w = .ok (.ldVxK x))

/-- `draw_occurred` (R97, for `00E0` the spec's decision D13) is 1 exactly when `00E0` or `DXYN` executed in this cycle and completed normally. -/
def Obligations.DrawOccurredOnlyOnDisplayInstructions : Prop :=
  ∀ s t : State, step s = .next t →
    (t.out.drawOccurred = true ↔ s.halted = false ∧ t.halted = false ∧
      ∃ w i, fetch s = .ok w ∧ decode w = .ok i ∧ (i = .cls ∨ ∃ x y n, i = .drw x y n))

/-- `halted` (R31, the spec's decision D5) is set by the cycle that raises `AddressOutOfRange` and by nothing else; while it is 1 no state changes; only reset, with whatever `FONT`, clears it. -/
def Obligations.OnlyAddressOutOfRangeHalts : Prop :=
  (∀ font, (State.resetWith font).halted = false) ∧ (∀ font s, (hostReset font s).halted = false) ∧
  (∀ s t : State, s.halted = false → step s = .next t →
    (t.halted = true ↔ ∃ space addr, t.out.event = some (.addressOutOfRange space addr))) ∧
  (∀ s t : State, s.halted = true → step s = .next t →
    InputsPresented { s with out := { status := .halted, event := none, drawOccurred := false, beep := false } } t) ∧
  (∀ (l : List Byte) (s t : State), loadProgram l s = .next t → t.halted = s.halted)

/-- U1 of 93_implementation_defined.md, the model's own mark (log entry 4): it is set by a cycle that outputs an event and by nothing else, and it stays. -/
def Obligations.ReportedMarkIsSticky : Prop :=
  ∀ s t : State, step s = .next t → (t.reported = true ↔ s.reported = true ∨ t.out.event ≠ none)

/-! ## Reset, load, memory -/

/-- Every piece of the core's state after reset, for every `FONT` (R36, R33; `halted` is the spec's own bit, decision D5; `FONT` is a parameter, decision D22).
`State.reset` is the case of the default table, whose bytes no clause here is about (log entry 5). -/
def Obligations.ResetStateIsTheSpecs : Prop :=
  (∀ font : Font,
    (∀ j : Reg, (State.resetWith font).V[j] = 0) ∧ (State.resetWith font).I = 0 ∧ (State.resetWith font).pc = 0x0200 ∧
    (∀ j : Reg, (State.resetWith font).stack[j] = 0) ∧ (State.resetWith font).sp.val = 0 ∧
    (State.resetWith font).DT = 0 ∧ (State.resetWith font).ST = 0 ∧
    (∀ p, p < 2048 → pixel (State.resetWith font) p = false) ∧
    (∀ (a : Nat) (h : a < 80), memRead (State.resetWith font).mem a = font[a]) ∧
    (∀ a, 0x050 ≤ a → a ≤ 0xFFF → memRead (State.resetWith font).mem a = 0) ∧ (State.resetWith font).halted = false) ∧
  State.reset = State.resetWith defaultFont

/-- R230: reset leads from any state whatever to the one reset state of the core for its `FONT` (a parameter, decision D22) and leaves the inputs alone (log entry 10). -/
def Obligations.HostResetReachesTheResetState : Prop :=
  ∀ (font : Font) (s : State),
    hostReset font s = { State.resetWith font with port := s.port, upcoming := s.upcoming, drawn := s.drawn }

/-- Loading (R232, R201, the spec's decision D21): exactly the image's bytes are written, from 0x200 up, or the load fails when the image is longer than 3584 bytes.
The premise on memory is the invariant of StepKeepsMemoryCanonical. -/
def Obligations.LoadProgramCopiesTheImage : Prop :=
  (∀ (l : List Byte) (s : State), l.length > 3584 → loadProgram l s = .fault (.programTooLarge l.length)) ∧
  (∀ (l : List Byte) (s : State), Memory.wf s.mem = true → l.length ≤ 3584 → ∃ t, loadProgram l s = .next t ∧
    t = { s with mem := t.mem } ∧
    (∀ i, i < l.length → l[i]? = some (memRead t.mem (0x200 + i))) ∧
    (∀ a, a < 0x200 ∨ 0x200 + l.length ≤ a → memRead t.mem a = memRead s.mem a))

/-- The primitives of R52: a store followed by a read of the same address returns the stored byte, and every other address reads as before;
both on a canonical memory, and canonical memories that read alike are equal. -/
def Obligations.ReadAfterWrite : Prop :=
  (∀ (m : Memory) (a b : Nat) (v : Byte), Memory.wf m = true → a ≤ 4095 →
    memRead (memWrite m a v) b = if b = a then v else memRead m b) ∧
  (∀ m m' : Memory, Memory.wf m = true → Memory.wf m' = true → (∀ a, a ≤ 4095 → memRead m a = memRead m' a) → m = m')

/-! ## Invariants -/

/-- The reset state meets the three invariants below, whatever `FONT` is (a parameter, the spec's decision D22). -/
def Obligations.ResetMeetsTheInvariants : Prop :=
  ∀ font : Font, Memory.wf (State.resetWith font).mem = true ∧ BoundedTargets (State.resetWith font) ∧ Safe (State.resetWith font)

/-- The model's canonical form (log entry 6) and R37 (d): a step keeps memory canonical, so it never holds a byte outside 0x000..0xFFF; so does every load. -/
def Obligations.StepKeepsMemoryCanonical : Prop :=
  (∀ s t : State, Memory.wf s.mem = true → step s = .next t → Memory.wf t.mem = true) ∧
  (∀ (l : List Byte) (s t : State), Memory.wf s.mem = true → loadProgram l s = .next t → Memory.wf t.mem = true)

/-- R111, R114, R24: from a state whose return addresses are at most 0x1000 and whose `pc` is at most 0x10FE, a step leads to such a state.
So a popped value is at most 4096 and `pc` never wraps. -/
def Obligations.StepKeepsTargetsBounded : Prop :=
  ∀ s t : State, BoundedTargets s → step s = .next t → BoundedTargets t

/-! ## Whole-machine rules -/

/-- The writes of R38: which instruction may touch which state. -/
def Obligations.AccessMatrixOfWrites : Prop :=
  ∀ (i : Instr) (s t : State), exec i s = .next t →
    (∀ j : Reg, t.V[j] = s.V[j] ∨ mayWriteReg i j) ∧
    (t.I = s.I ∨ (∃ nnn, i = .ldI nnn) ∨ (∃ x, i = .addI x) ∨ ∃ x, i = .ldF x) ∧
    ((t.stack = s.stack ∧ t.sp = s.sp) ∨ i = .ret ∨ ∃ nnn, i = .call nnn) ∧
    (t.stack = s.stack ∨ ∃ nnn, i = .call nnn) ∧
    (t.DT = s.DT ∨ ∃ x, i = .ldDTVx x) ∧ (t.ST = s.ST ∨ ∃ x, i = .ldSTVx x) ∧
    (t.display = s.display ∨ i = .cls ∨ ∃ x y n, i = .drw x y n) ∧
    (t.mem = s.mem ∨ (∃ x, i = .ldB x) ∨ ∃ x, i = .storeRegs x) ∧
    (t.pc = s.pc ∨ t.pc = s.pc + 2 ∨ t.pc = s.pc + 4 ∨ i = .ret ∨ (∃ nnn, i = .jp nnn) ∨ (∃ nnn, i = .call nnn) ∨
      ∃ nnn, i = .jpV0 nnn) ∧
    t.port = s.port ∧ t.upcoming = s.upcoming ∧ t.drawn = s.drawn

/-- The reads R34, R35 and R28 allow: `rnd` is read only by `CXNN`, `keys` only by `EX9E`, `EXA1`, `FX0A`, and `ST` by no instruction:
changing one of them before an instruction that does not read it changes nothing of what the instruction does, but for the changed input itself where it is kept.
`FX18`, which overwrites `ST`, gives the very same state. -/
def Obligations.InputsAreReadOnlyByTheirInstructions : Prop :=
  ∀ (i : Instr) (s t : State), exec i s = .next t →
    (∀ r : Byte, (∀ x nn, i ≠ .rnd x nn) →
      exec i { s with port := { s.port with rnd := r } } = .next { t with port := { t.port with rnd := r } }) ∧
    (∀ k : BitVec 16, (∀ x, i ≠ .skp x) → (∀ x, i ≠ .sknp x) → (∀ x, i ≠ .ldVxK x) →
      exec i { s with port := { s.port with keys := k } } = .next { t with port := { t.port with keys := k } }) ∧
    (∀ b : Byte, (∀ x, i ≠ .ldSTVx x) → exec i { s with ST := b } = .next { t with ST := b }) ∧
    (∀ b : Byte, (∃ x, i = .ldSTVx x) → exec i { s with ST := b } = .next t)

/-- What R247 (b) derives: a parked machine stays parked and every cycle changes nothing but `DT` and `ST`, which run down;
with both at 0 nothing of the core changes at all. -/
def Obligations.ParkedMachineStaysParked : Prop :=
  ∀ s : State, Parked s → ∃ t, step s = .next t ∧ Parked t ∧
    InputsPresented { s with DT := countDown s.DT, ST := countDown s.ST, out := { quietOutputs with beep := s.ST == 1 } } t ∧
    (s.DT = 0 → s.ST = 0 → t.DT = 0 ∧ t.ST = 0 ∧ t.out = quietOutputs)

/-- What R61 derives, R243: the two bytes at `pc` after an instruction's stores are the word the very next cycle fetches:
a register block stored over the next instruction is what runs next. -/
def Obligations.StoresAreSeenByTheNextFetch : Prop :=
  ∀ (x : Reg) (s t : State), Memory.wf s.mem = true → s.pc.toNat ≤ 4092 → 1 ≤ x.val →
    s.I.toNat = s.pc.toNat + 2 → s.I.toNat + x.val ≤ 4095 → exec (.storeRegs x) s = .next t →
    fetch (endCycle t) = .ok (wordOfBytes s.V[0] s.V[1])
end

