-- ==== Sys2Proof/Laws/Decode.lean ====
section
/-! SUPPORT. Sys2Proof/Laws/Decode.lean: the masks of R75 and the word forms of R84 as exact arithmetic on the word's number. -/

namespace Sys2Proof

/-! ### Masks -/

/-- The mask 0xF000 keeps the high nibble in place. -/
theorem and_F000 (w : Word) : w &&& 0xF000#16 = (w >>> 12) <<< 12 := by
  ext i hi
  interval_cases i <;> simp

/-- The mask 0x000F keeps the low nibble. -/
theorem and_000F_toNat (w : Word) : (w &&& 0x000F#16).toNat = w.toNat % 16 := by
  rw [BitVec.toNat_and]
  exact Nat.and_two_pow_sub_one_eq_mod w.toNat 4

/-- The mask 0x00FF keeps the low byte. -/
theorem and_00FF_toNat (w : Word) : (w &&& 0x00FF#16).toNat = w.toNat % 256 := by
  rw [BitVec.toNat_and]
  exact Nat.and_two_pow_sub_one_eq_mod w.toNat 8

theorem and_F000_toNat (w : Word) : (w &&& 0xF000#16).toNat = w.toNat / 4096 * 4096 := by
  have h := w.isLt
  rw [and_F000, BitVec.toNat_shiftLeft, BitVec.toNat_ushiftRight, Nat.shiftLeft_eq, Nat.shiftRight_eq_div_pow]
  omega

/-- A number with its low `k` bits clear, or-ed with a number of `k` bits, is their sum. -/
theorem or_eq_add (a b k : Nat) (hb : b < 2 ^ k) : (a * 2 ^ k) ||| b = a * 2 ^ k + b := by
  rw [Nat.mul_comm, Nat.two_pow_add_eq_or_of_lt hb]

theorem and_F00F_toNat (w : Word) : (w &&& 0xF00F#16).toNat = w.toNat / 4096 * 4096 + w.toNat % 16 := by
  have h : w &&& 0xF00F#16 = (w &&& 0xF000#16) ||| (w &&& 0x000F#16) := by
    rw [← BitVec.and_or_distrib_left]; rfl
  rw [h, BitVec.toNat_or, and_F000_toNat, and_000F_toNat]
  exact or_eq_add _ _ 12 (by omega)

theorem and_F0FF_toNat (w : Word) : (w &&& 0xF0FF#16).toNat = w.toNat / 4096 * 4096 + w.toNat % 256 := by
  have h : w &&& 0xF0FF#16 = (w &&& 0xF000#16) ||| (w &&& 0x00FF#16) := by
    rw [← BitVec.and_or_distrib_left]; rfl
  rw [h, BitVec.toNat_or, and_F000_toNat, and_00FF_toNat]
  exact or_eq_add _ _ 12 (by omega)

theorem and_FFFF (w : Word) : w &&& 0xFFFF#16 = w := BitVec.and_allOnes

/-- A family that is one instruction: the mask tests the high nibble. -/
theorem mask_F000_iff (w p : Word) : w &&& 0xF000#16 = p ↔ w.toNat / 4096 * 4096 = p.toNat := by
  rw [← BitVec.toNat_inj, and_F000_toNat]

/-- A family keyed on `n`: the mask tests the high and the low nibble. -/
theorem mask_F00F_iff (w p : Word) : w &&& 0xF00F#16 = p ↔ w.toNat / 4096 * 4096 + w.toNat % 16 = p.toNat := by
  rw [← BitVec.toNat_inj, and_F00F_toNat]

/-- A family keyed on `nn`: the mask tests the high nibble and the low byte. -/
theorem mask_F0FF_iff (w p : Word) : w &&& 0xF0FF#16 = p ↔ w.toNat / 4096 * 4096 + w.toNat % 256 = p.toNat := by
  rw [← BitVec.toNat_inj, and_F0FF_toNat]

/-! ### Fields -/

@[simp] theorem fieldN_val (w : Word) : (fieldN w).val = w.toNat % 16 := rfl

@[simp] theorem fieldX_val (w : Word) : (fieldX w).val = w.toNat / 256 % 16 := rfl

@[simp] theorem fieldY_val (w : Word) : (fieldY w).val = w.toNat / 16 % 16 := rfl

@[simp] theorem fieldNN_toNat (w : Word) : (fieldNN w).toNat = w.toNat % 256 := by
  simp [fieldNN, BitVec.toNat_setWidth]

@[simp] theorem fieldNNN_toNat (w : Word) : (fieldNNN w).toNat = w.toNat % 4096 := by
  simp [fieldNNN, BitVec.toNat_setWidth]

/-! ### Words from fields -/

/-- Format A (R84). -/
theorem encodeA_toNat {p : Word} (k : Nat) (hp : p.toNat = k * 4096) (nnn : Addr12) :
    (encodeA p nnn).toNat = k * 4096 + nnn.toNat := by
  have h := nnn.isLt
  rw [encodeA, BitVec.toNat_or, hp, BitVec.toNat_setWidth, Nat.mod_eq_of_lt (by omega)]
  exact or_eq_add _ _ 12 h

/-- Format X (R84). -/
theorem encodeX_toNat {p : Word} (k l : Nat) (hk : k < 16) (hl : l < 256) (hp : p.toNat = k * 4096 + l) (x : Reg) :
    (encodeX p x).toNat = k * 4096 + x.val * 256 + l := by
  have hx := x.isLt
  rw [encodeX, BitVec.toNat_or, hp, BitVec.toNat_shiftLeft, BitVec.toNat_ofNat, Nat.shiftLeft_eq,
    Nat.mod_eq_of_lt (by omega), Nat.mod_eq_of_lt (by omega),
    show k * 4096 + l = k * 2 ^ 12 ||| l from (or_eq_add k l 12 (by omega)).symm, Nat.or_assoc, Nat.or_comm l, or_eq_add x.val l 8 hl, or_eq_add k _ 12 (by omega)]
  omega

/-- Format I (R84). -/
theorem encodeI_toNat {p : Word} (k : Nat) (hk : k < 16) (hp : p.toNat = k * 4096) (x : Reg) (nn : Byte) :
    (encodeI p x nn).toNat = k * 4096 + x.val * 256 + nn.toNat := by
  have hx := x.isLt
  have hn := nn.isLt
  have h1 : (p ||| (BitVec.ofNat 16 x.val <<< 8)).toNat = (k * 16 + x.val) * 2 ^ 8 := by
    have h := encodeX_toNat (p := p) k 0 hk (by norm_num) (hp.trans (Nat.add_zero _).symm) x
    rw [encodeX] at h
    rw [h]
    ring
  rw [encodeI, BitVec.toNat_or, h1, BitVec.toNat_setWidth, Nat.mod_eq_of_lt (by omega), or_eq_add _ _ 8 hn]
  omega

/-- Format D, and format R with its `n` apart (R84). -/
theorem encodeD_toNat {p : Word} (k : Nat) (hk : k < 16) (hp : p.toNat = k * 4096) (x y : Reg) (n : Height) :
    (encodeD p x y n).toNat = k * 4096 + x.val * 256 + y.val * 16 + n.val := by
  have hx := x.isLt
  have hy := y.isLt
  have hn := n.isLt
  have h1 : (p ||| (BitVec.ofNat 16 x.val <<< 8)).toNat = (k * 16 + x.val) * 2 ^ 8 := by
    have h := encodeX_toNat (p := p) k 0 hk (by norm_num) (hp.trans (Nat.add_zero _).symm) x
    rw [encodeX] at h
    rw [h]
    ring
  rw [encodeD, BitVec.toNat_or, BitVec.toNat_or, h1, BitVec.toNat_shiftLeft, BitVec.toNat_ofNat, BitVec.toNat_ofNat,
    Nat.shiftLeft_eq, Nat.mod_eq_of_lt (a := y.val) (by omega), Nat.mod_eq_of_lt (by omega), Nat.mod_eq_of_lt (by omega),
    or_eq_add _ _ 8 (by omega), show (k * 16 + x.val) * 2 ^ 8 + y.val * 2 ^ 4 = (k * 256 + x.val * 16 + y.val) * 2 ^ 4 by omega,
    or_eq_add _ _ 4 (by omega)]
  omega

/-- Format R (R84): the `n` of the match is or-ed in like a height. -/
theorem encodeR_toNat {p : Word} (k l : Nat) (hk : k < 16) (hl : l < 16) (hp : p = BitVec.ofNat 16 (k * 4096 + l)) (x y : Reg) :
    (encodeR p x y).toNat = k * 4096 + x.val * 256 + y.val * 16 + l := by
  have hsum : p = BitVec.ofNat 16 (k * 4096) ||| BitVec.ofNat 16 l := by
    apply BitVec.eq_of_toNat_eq
    rw [hp, BitVec.toNat_or, BitVec.toNat_ofNat, BitVec.toNat_ofNat, BitVec.toNat_ofNat, Nat.mod_eq_of_lt (by omega),
      Nat.mod_eq_of_lt (by omega), Nat.mod_eq_of_lt (by omega)]
    exact (or_eq_add k l 12 (by omega)).symm
  have h := encodeD_toNat (p := BitVec.ofNat 16 (k * 4096)) k hk
    (by rw [BitVec.toNat_ofNat, Nat.mod_eq_of_lt (by omega)]) x y ⟨l, hl⟩
  rw [← h]
  congr 1
  simp only [encodeR, encodeD, hsum]
  ac_rfl

/-! ### Bytes -/

/-- The word of two bytes, as a number (R54). -/
theorem wordOfBytes_toNat (hi lo : Byte) : (wordOfBytes hi lo).toNat = hi.toNat * 256 + lo.toNat := by
  have h := hi.isLt
  have l := lo.isLt
  rw [wordOfBytes, BitVec.toNat_or, BitVec.toNat_shiftLeft, BitVec.toNat_setWidth, BitVec.toNat_setWidth, Nat.shiftLeft_eq,
    Nat.mod_eq_of_lt (by omega), Nat.mod_eq_of_lt (by omega), Nat.mod_eq_of_lt (by omega)]
  exact or_eq_add _ _ 8 l

/-- A word is put together again from its two bytes (R54). -/
theorem wordOfBytes_split (w : Word) : wordOfBytes (highByte w) (lowByte w) = w := by
  apply BitVec.eq_of_toNat_eq
  have h := w.isLt
  rw [wordOfBytes_toNat, highByte, lowByte, BitVec.toNat_setWidth, BitVec.toNat_setWidth, BitVec.toNat_ushiftRight,
    Nat.shiftRight_eq_div_pow]
  omega

end Sys2Proof
end

