-- ==== Sys2Proof/Laws/Memory.lean ====
section
/-! SUPPORT. Sys2Proof/Laws/Memory.lean: what the memory operations do to a read, and that they keep the canonical form. -/

namespace Sys2Proof.Machine

@[simp] theorem memRead_nil (a : Nat) : memRead [] a = unlistedByte := rfl

/-- A form that starts later starts earlier too. -/
theorem wfFrom_mono {lo lo' : Nat} {m : Memory} (hle : lo' ≤ lo) (h : Memory.wfFrom lo m = true) :
    Memory.wfFrom lo' m = true := by
  cases m with
  | nil => rfl
  | cons c rest =>
    simp only [Memory.wfFrom, Bool.and_eq_true, decide_eq_true_eq] at h ⊢
    exact ⟨⟨⟨by omega, h.1.1.2⟩, h.1.2⟩, h.2⟩

/-- Below its start a canonical list lists nothing. -/
theorem memRead_below {lo a : Nat} {m : Memory} (h : Memory.wfFrom lo m = true) (ha : a < lo) :
    memRead m a = unlistedByte := by
  induction m generalizing lo with
  | nil => rfl
  | cons c rest ih =>
    obtain ⟨b, v⟩ := c
    simp only [Memory.wfFrom, Bool.and_eq_true, decide_eq_true_eq] at h
    rw [memRead, if_neg (by omega)]
    exact ih h.2 (by omega)

/-- Past the end of memory a canonical list lists nothing (R37 (d)). -/
theorem memRead_above {lo a : Nat} {m : Memory} (h : Memory.wfFrom lo m = true) (ha : Config.memSize ≤ a) :
    memRead m a = unlistedByte := by
  induction m generalizing lo with
  | nil => rfl
  | cons c rest ih =>
    obtain ⟨b, v⟩ := c
    simp only [Memory.wfFrom, Bool.and_eq_true, decide_eq_true_eq] at h
    rw [memRead, if_neg (by omega)]
    exact ih h.2

/-- A store is read back at its address and seen nowhere else (R52). -/
theorem memRead_memSet {lo : Nat} {m : Memory} (h : Memory.wfFrom lo m = true) (a b : Nat) (v : Byte) :
    memRead (memSet m a v) b = if b = a then v else memRead m b := by
  induction m generalizing lo with
  | nil => unfold memSet; split <;> simp_all [memRead]
  | cons c rest ih =>
    obtain ⟨d, u⟩ := c
    simp only [Memory.wfFrom, Bool.and_eq_true, decide_eq_true_eq] at h
    have hbelow := memRead_below (a := a) h.2
    unfold memSet
    split
    · have hd := hbelow (by omega)
      split
      · rcases eq_or_ne b a with rfl | hb
        · rw [memRead, if_neg (by omega), hd]; simp_all
        · simp [hb]
      · simp [memRead]
    · split
      · subst_vars
        have hd := hbelow (by omega)
        split
        · rcases eq_or_ne b d with rfl | hb <;> simp_all [memRead]
        · rcases eq_or_ne b d with rfl | hb <;> simp_all [memRead]
      · rw [memRead, ih h.2, memRead]
        rcases eq_or_ne b d with rfl | hb
        · simp only [if_true]; rw [if_neg (by omega)]
        · simp [hb]

/-- A store keeps the canonical form. -/
theorem memSet_wfFrom {lo : Nat} {m : Memory} (h : Memory.wfFrom lo m = true) {a : Nat} (v : Byte)
    (hlo : lo ≤ a) (ha : a < Config.memSize) : Memory.wfFrom lo (memSet m a v) = true := by
  induction m generalizing lo with
  | nil =>
    unfold memSet
    split
    · rfl
    · simp_all [Memory.wfFrom]
  | cons c rest ih =>
    obtain ⟨d, u⟩ := c
    simp only [Memory.wfFrom, Bool.and_eq_true, decide_eq_true_eq] at h
    unfold memSet
    split
    · split
      · simp_all [Memory.wfFrom]
      · simp_all [Memory.wfFrom]
    · split
      · subst_vars
        split
        · exact wfFrom_mono (by omega) h.2
        · simp_all [Memory.wfFrom]
      · simp only [Memory.wfFrom, Bool.and_eq_true, decide_eq_true_eq]
        exact ⟨h.1, ih h.2 (by omega)⟩

/-- MemWrite keeps the canonical form. -/
theorem memWrite_wf {m : Memory} (h : m.wf = true) (a : Nat) (v : Byte) : (memWrite m a v).wf = true := by
  unfold memWrite
  split
  · exact memSet_wfFrom h v (Nat.zero_le _) ‹_›
  · exact h

/-- MemRead after MemWrite (R52). -/
theorem memRead_memWrite {m : Memory} (h : m.wf = true) (a b : Nat) (v : Byte) :
    memRead (memWrite m a v) b = if b = a ∧ a < Config.memSize then v else memRead m b := by
  unfold memWrite
  split
  · rw [memRead_memSet h]; simp [*]
  · simp [*]

/-- A run of stores keeps the canonical form. -/
theorem memWriteList_wf (l : List Byte) {m : Memory} (h : m.wf = true) (a : Nat) :
    (memWriteList m a l).wf = true := by
  induction l generalizing m a with
  | nil => exact h
  | cons b rest ih => exact ih (memWrite_wf h a b) (a + 1)

/-- Outside the stored bytes every address reads as before (R52). -/
theorem memRead_memWriteList_outside (l : List Byte) {m : Memory} (h : m.wf = true) {a b : Nat}
    (hb : b < a ∨ a + l.length ≤ b) : memRead (memWriteList m a l) b = memRead m b := by
  induction l generalizing m a with
  | nil => rfl
  | cons v rest ih =>
    simp only [List.length_cons] at hb
    rw [memWriteList, ih (memWrite_wf h a v) (by omega), memRead_memWrite h, if_neg (by omega)]

/-- The `i`-th stored byte is read back at `a + i` (R52). -/
theorem memRead_memWriteList_inside (l : List Byte) {m : Memory} (h : m.wf = true) {a i : Nat}
    (hi : i < l.length) (ha : a + l.length ≤ Config.memSize) :
    memRead (memWriteList m a l) (a + i) = l[i] := by
  induction l generalizing m a i with
  | nil => simp at hi
  | cons v rest ih =>
    simp only [List.length_cons] at hi ha
    have hw := memWrite_wf h a v
    cases i with
    | zero =>
      rw [memWriteList, memRead_memWriteList_outside rest hw (by omega), memRead_memWrite h]
      simp; omega
    | succ i =>
      rw [memWriteList, show a + (i + 1) = a + 1 + i by omega, ih hw (by omega) (by omega)]
      simp

/-! ### The memory reset leaves -/

/-- Bytes laid out from `a` up are a canonical list. -/
theorem cellsFrom_wfFrom (l : List Byte) {lo a : Nat} (hlo : lo ≤ a) (ha : a + l.length ≤ Config.memSize) :
    Memory.wfFrom lo (cellsFrom a l) = true := by
  induction l generalizing lo a with
  | nil => rfl
  | cons b rest ih =>
    simp only [List.length_cons] at ha
    unfold cellsFrom
    split
    · exact ih (by omega) (by omega)
    · simp only [Memory.wfFrom, Bool.and_eq_true, decide_eq_true_eq]
      exact ⟨⟨⟨hlo, by omega⟩, ‹_›⟩, ih (le_refl _) (by omega)⟩

/-- Each of the bytes is read at its place, and every other address as unlisted. -/
theorem memRead_cellsFrom (l : List Byte) (a b : Nat) :
    memRead (cellsFrom a l) b = if a ≤ b then l.getD (b - a) unlistedByte else unlistedByte := by
  induction l generalizing a with
  | nil => simp [cellsFrom]
  | cons v rest ih =>
    have hsplit : memRead (cellsFrom a (v :: rest)) b = if b = a then v else memRead (cellsFrom (a + 1) rest) b := by
      rcases eq_or_ne b a with rfl | hb
      · unfold cellsFrom
        split
        · rw [ih, if_neg (by omega), if_pos rfl]; exact Eq.symm ‹_›
        · simp [memRead]
      · rw [if_neg hb, cellsFrom]
        split
        · rfl
        · simp [memRead, hb]
    rw [hsplit, ih]
    rcases Nat.lt_trichotomy b a with h | rfl | h
    · rw [if_neg (by omega), if_neg (by omega), if_neg (by omega)]
    · simp
    · rw [if_neg (by omega), if_pos (by omega), if_pos (by omega), show b - a = (b - (a + 1)) + 1 by omega]
      simp

/-- Reset memory is canonical, whatever the font. -/
theorem fontMemory_wf (font : Font) : Memory.wf (fontMemory font) = true :=
  cellsFrom_wfFrom _ (Nat.zero_le _) (by simp [Config.fontBase, Config.fontLen, Config.memSize])

/-- R33, R36: a font byte is read at its address. -/
theorem memRead_fontMemory_inside (font : Font) (a : Nat) (h : a < 80) : memRead (fontMemory font) a = font[a] := by
  simp [fontMemory, memRead_cellsFrom, Config.fontBase, List.getD_eq_getElem?_getD, h]

/-- R36: above the font every byte is 0x00. -/
theorem memRead_fontMemory_outside (font : Font) (a : Nat) (h : 80 ≤ a) : memRead (fontMemory font) a = 0 := by
  simp [fontMemory, memRead_cellsFrom, Config.fontBase, List.getD_eq_getElem?_getD, h, unlistedByte]

@[simp] theorem memReadList_length (m : Memory) (a k : Nat) : (memReadList m a k).length = k := by
  induction k generalizing a with
  | zero => rfl
  | succ k ih => simp [memReadList, ih]

/-- The `i`-th byte of a run of reads. -/
theorem memReadList_get (m : Memory) (a k i : Nat) (hi : i < (memReadList m a k).length) :
    (memReadList m a k)[i] = memRead m (a + i) := by
  induction k generalizing a i with
  | zero => simp [memReadList] at hi
  | succ k ih =>
    cases i with
    | zero => simp [memReadList]
    | succ i =>
      simp only [memReadList, List.getElem_cons_succ]
      rw [ih]; congr 1; omega

/-- Two canonical lists that read alike are the same list. -/
theorem memory_ext {lo : Nat} {m m' : Memory} (h : Memory.wfFrom lo m = true) (h' : Memory.wfFrom lo m' = true)
    (hr : ∀ a, memRead m a = memRead m' a) : m = m' := by
  induction m generalizing lo m' with
  | nil =>
    cases m' with
    | nil => rfl
    | cons c rest =>
      obtain ⟨d, u⟩ := c
      simp only [Memory.wfFrom, Bool.and_eq_true, decide_eq_true_eq] at h'
      have := hr d
      simp [memRead] at this
      exact absurd this.symm h'.1.2
  | cons c rest ih =>
    obtain ⟨d, u⟩ := c
    have hc := h
    simp only [Memory.wfFrom, Bool.and_eq_true, decide_eq_true_eq] at h
    cases m' with
    | nil =>
      have := hr d
      simp [memRead] at this
      exact absurd this h.1.2
    | cons c' rest' =>
      obtain ⟨d', u'⟩ := c'
      have hc' := h'
      simp only [Memory.wfFrom, Bool.and_eq_true, decide_eq_true_eq] at h'
      have hd : d = d' := by
        rcases Nat.lt_trichotomy d d' with hlt | heq | hgt
        · have h1 := hr d
          rw [memRead, if_pos rfl, memRead, if_neg (by omega), memRead_below h'.2 (by omega)] at h1
          exact absurd h1 h.1.2
        · exact heq
        · have h1 := hr d'
          rw [memRead, if_neg (by omega), memRead_below h.2 (by omega), memRead, if_pos rfl] at h1
          exact absurd h1.symm h'.1.2
      subst hd
      have hu : u = u' := by simpa [memRead] using hr d
      subst hu
      congr 1
      refine ih h.2 h'.2 fun a => ?_
      rcases eq_or_ne a d with rfl | hne
      · rw [memRead_below h.2 (by omega), memRead_below h'.2 (by omega)]
      · simpa [memRead, hne] using hr a

end Sys2Proof.Machine
end

