-- ==== Sys2Proof/Laws/State.lean ====
section
/-! SUPPORT. Sys2Proof/Laws/State.lean: one lemma per field per update of the state, so that no proof unfolds a record update. -/

namespace Sys2Proof.Machine

/-! ### writeV -/

@[simp] theorem writeV_mem (s : State) (x : Reg) (b : Byte) : (writeV s x b).mem = s.mem := rfl
@[simp] theorem writeV_I (s : State) (x : Reg) (b : Byte) : (writeV s x b).I = s.I := rfl
@[simp] theorem writeV_pc (s : State) (x : Reg) (b : Byte) : (writeV s x b).pc = s.pc := rfl
@[simp] theorem writeV_stack (s : State) (x : Reg) (b : Byte) : (writeV s x b).stack = s.stack := rfl
@[simp] theorem writeV_sp (s : State) (x : Reg) (b : Byte) : (writeV s x b).sp = s.sp := rfl
@[simp] theorem writeV_DT (s : State) (x : Reg) (b : Byte) : (writeV s x b).DT = s.DT := rfl
@[simp] theorem writeV_ST (s : State) (x : Reg) (b : Byte) : (writeV s x b).ST = s.ST := rfl
@[simp] theorem writeV_display (s : State) (x : Reg) (b : Byte) : (writeV s x b).display = s.display := rfl
@[simp] theorem writeV_halted (s : State) (x : Reg) (b : Byte) : (writeV s x b).halted = s.halted := rfl
@[simp] theorem writeV_out (s : State) (x : Reg) (b : Byte) : (writeV s x b).out = s.out := rfl
@[simp] theorem writeV_reported (s : State) (x : Reg) (b : Byte) : (writeV s x b).reported = s.reported := rfl
@[simp] theorem writeV_port (s : State) (x : Reg) (b : Byte) : (writeV s x b).port = s.port := rfl
@[simp] theorem writeV_upcoming (s : State) (x : Reg) (b : Byte) : (writeV s x b).upcoming = s.upcoming := rfl
@[simp] theorem writeV_drawn (s : State) (x : Reg) (b : Byte) : (writeV s x b).drawn = s.drawn := rfl

/-! ### writeFlag -/

@[simp] theorem writeFlag_mem (s : State) (f : Bool) : (writeFlag s f).mem = s.mem := rfl
@[simp] theorem writeFlag_I (s : State) (f : Bool) : (writeFlag s f).I = s.I := rfl
@[simp] theorem writeFlag_pc (s : State) (f : Bool) : (writeFlag s f).pc = s.pc := rfl
@[simp] theorem writeFlag_stack (s : State) (f : Bool) : (writeFlag s f).stack = s.stack := rfl
@[simp] theorem writeFlag_sp (s : State) (f : Bool) : (writeFlag s f).sp = s.sp := rfl
@[simp] theorem writeFlag_DT (s : State) (f : Bool) : (writeFlag s f).DT = s.DT := rfl
@[simp] theorem writeFlag_ST (s : State) (f : Bool) : (writeFlag s f).ST = s.ST := rfl
@[simp] theorem writeFlag_display (s : State) (f : Bool) : (writeFlag s f).display = s.display := rfl
@[simp] theorem writeFlag_halted (s : State) (f : Bool) : (writeFlag s f).halted = s.halted := rfl
@[simp] theorem writeFlag_out (s : State) (f : Bool) : (writeFlag s f).out = s.out := rfl
@[simp] theorem writeFlag_reported (s : State) (f : Bool) : (writeFlag s f).reported = s.reported := rfl
@[simp] theorem writeFlag_port (s : State) (f : Bool) : (writeFlag s f).port = s.port := rfl
@[simp] theorem writeFlag_upcoming (s : State) (f : Bool) : (writeFlag s f).upcoming = s.upcoming := rfl
@[simp] theorem writeFlag_drawn (s : State) (f : Bool) : (writeFlag s f).drawn = s.drawn := rfl

/-! ### writeFlagThen -/

@[simp] theorem writeFlagThen_mem (s : State) (f : Bool) (x : Reg) (b : Byte) : (writeFlagThen s f x b).mem = s.mem := rfl
@[simp] theorem writeFlagThen_I (s : State) (f : Bool) (x : Reg) (b : Byte) : (writeFlagThen s f x b).I = s.I := rfl
@[simp] theorem writeFlagThen_pc (s : State) (f : Bool) (x : Reg) (b : Byte) : (writeFlagThen s f x b).pc = s.pc := rfl
@[simp] theorem writeFlagThen_stack (s : State) (f : Bool) (x : Reg) (b : Byte) : (writeFlagThen s f x b).stack = s.stack := rfl
@[simp] theorem writeFlagThen_sp (s : State) (f : Bool) (x : Reg) (b : Byte) : (writeFlagThen s f x b).sp = s.sp := rfl
@[simp] theorem writeFlagThen_DT (s : State) (f : Bool) (x : Reg) (b : Byte) : (writeFlagThen s f x b).DT = s.DT := rfl
@[simp] theorem writeFlagThen_ST (s : State) (f : Bool) (x : Reg) (b : Byte) : (writeFlagThen s f x b).ST = s.ST := rfl
@[simp] theorem writeFlagThen_display (s : State) (f : Bool) (x : Reg) (b : Byte) : (writeFlagThen s f x b).display = s.display := rfl
@[simp] theorem writeFlagThen_halted (s : State) (f : Bool) (x : Reg) (b : Byte) : (writeFlagThen s f x b).halted = s.halted := rfl
@[simp] theorem writeFlagThen_out (s : State) (f : Bool) (x : Reg) (b : Byte) : (writeFlagThen s f x b).out = s.out := rfl
@[simp] theorem writeFlagThen_reported (s : State) (f : Bool) (x : Reg) (b : Byte) : (writeFlagThen s f x b).reported = s.reported := rfl
@[simp] theorem writeFlagThen_port (s : State) (f : Bool) (x : Reg) (b : Byte) : (writeFlagThen s f x b).port = s.port := rfl
@[simp] theorem writeFlagThen_upcoming (s : State) (f : Bool) (x : Reg) (b : Byte) : (writeFlagThen s f x b).upcoming = s.upcoming := rfl
@[simp] theorem writeFlagThen_drawn (s : State) (f : Bool) (x : Reg) (b : Byte) : (writeFlagThen s f x b).drawn = s.drawn := rfl

/-! ### setPc -/

@[simp] theorem setPc_mem (s : State) (t : Word) : (setPc s t).mem = s.mem := rfl
@[simp] theorem setPc_V (s : State) (t : Word) : (setPc s t).V = s.V := rfl
@[simp] theorem setPc_I (s : State) (t : Word) : (setPc s t).I = s.I := rfl
@[simp] theorem setPc_pc (s : State) (t : Word) : (setPc s t).pc = t := rfl
@[simp] theorem setPc_stack (s : State) (t : Word) : (setPc s t).stack = s.stack := rfl
@[simp] theorem setPc_sp (s : State) (t : Word) : (setPc s t).sp = s.sp := rfl
@[simp] theorem setPc_DT (s : State) (t : Word) : (setPc s t).DT = s.DT := rfl
@[simp] theorem setPc_ST (s : State) (t : Word) : (setPc s t).ST = s.ST := rfl
@[simp] theorem setPc_display (s : State) (t : Word) : (setPc s t).display = s.display := rfl
@[simp] theorem setPc_halted (s : State) (t : Word) : (setPc s t).halted = s.halted := rfl
@[simp] theorem setPc_out (s : State) (t : Word) : (setPc s t).out = s.out := rfl
@[simp] theorem setPc_reported (s : State) (t : Word) : (setPc s t).reported = s.reported := rfl
@[simp] theorem setPc_port (s : State) (t : Word) : (setPc s t).port = s.port := rfl
@[simp] theorem setPc_upcoming (s : State) (t : Word) : (setPc s t).upcoming = s.upcoming := rfl
@[simp] theorem setPc_drawn (s : State) (t : Word) : (setPc s t).drawn = s.drawn := rfl

/-! ### advance -/

@[simp] theorem advance_mem (s : State) : (advance s).mem = s.mem := rfl
@[simp] theorem advance_V (s : State) : (advance s).V = s.V := rfl
@[simp] theorem advance_I (s : State) : (advance s).I = s.I := rfl
@[simp] theorem advance_pc (s : State) : (advance s).pc = s.pc + 2 := rfl
@[simp] theorem advance_stack (s : State) : (advance s).stack = s.stack := rfl
@[simp] theorem advance_sp (s : State) : (advance s).sp = s.sp := rfl
@[simp] theorem advance_DT (s : State) : (advance s).DT = s.DT := rfl
@[simp] theorem advance_ST (s : State) : (advance s).ST = s.ST := rfl
@[simp] theorem advance_display (s : State) : (advance s).display = s.display := rfl
@[simp] theorem advance_halted (s : State) : (advance s).halted = s.halted := rfl
@[simp] theorem advance_out (s : State) : (advance s).out = s.out := rfl
@[simp] theorem advance_reported (s : State) : (advance s).reported = s.reported := rfl
@[simp] theorem advance_port (s : State) : (advance s).port = s.port := rfl
@[simp] theorem advance_upcoming (s : State) : (advance s).upcoming = s.upcoming := rfl
@[simp] theorem advance_drawn (s : State) : (advance s).drawn = s.drawn := rfl

/-! ### skipIf -/

@[simp] theorem skipIf_mem (c : Bool) (s : State) : (skipIf c s).mem = s.mem := rfl
@[simp] theorem skipIf_V (c : Bool) (s : State) : (skipIf c s).V = s.V := rfl
@[simp] theorem skipIf_I (c : Bool) (s : State) : (skipIf c s).I = s.I := rfl
@[simp] theorem skipIf_pc (c : Bool) (s : State) : (skipIf c s).pc = if c then s.pc + 4 else s.pc + 2 := rfl
@[simp] theorem skipIf_stack (c : Bool) (s : State) : (skipIf c s).stack = s.stack := rfl
@[simp] theorem skipIf_sp (c : Bool) (s : State) : (skipIf c s).sp = s.sp := rfl
@[simp] theorem skipIf_DT (c : Bool) (s : State) : (skipIf c s).DT = s.DT := rfl
@[simp] theorem skipIf_ST (c : Bool) (s : State) : (skipIf c s).ST = s.ST := rfl
@[simp] theorem skipIf_display (c : Bool) (s : State) : (skipIf c s).display = s.display := rfl
@[simp] theorem skipIf_halted (c : Bool) (s : State) : (skipIf c s).halted = s.halted := rfl
@[simp] theorem skipIf_out (c : Bool) (s : State) : (skipIf c s).out = s.out := rfl
@[simp] theorem skipIf_reported (c : Bool) (s : State) : (skipIf c s).reported = s.reported := rfl
@[simp] theorem skipIf_port (c : Bool) (s : State) : (skipIf c s).port = s.port := rfl
@[simp] theorem skipIf_upcoming (c : Bool) (s : State) : (skipIf c s).upcoming = s.upcoming := rfl
@[simp] theorem skipIf_drawn (c : Bool) (s : State) : (skipIf c s).drawn = s.drawn := rfl

/-! ### setI -/

@[simp] theorem setI_mem (s : State) (w : Word) : (setI s w).mem = s.mem := rfl
@[simp] theorem setI_V (s : State) (w : Word) : (setI s w).V = s.V := rfl
@[simp] theorem setI_I (s : State) (w : Word) : (setI s w).I = w := rfl
@[simp] theorem setI_pc (s : State) (w : Word) : (setI s w).pc = s.pc := rfl
@[simp] theorem setI_stack (s : State) (w : Word) : (setI s w).stack = s.stack := rfl
@[simp] theorem setI_sp (s : State) (w : Word) : (setI s w).sp = s.sp := rfl
@[simp] theorem setI_DT (s : State) (w : Word) : (setI s w).DT = s.DT := rfl
@[simp] theorem setI_ST (s : State) (w : Word) : (setI s w).ST = s.ST := rfl
@[simp] theorem setI_display (s : State) (w : Word) : (setI s w).display = s.display := rfl
@[simp] theorem setI_halted (s : State) (w : Word) : (setI s w).halted = s.halted := rfl
@[simp] theorem setI_out (s : State) (w : Word) : (setI s w).out = s.out := rfl
@[simp] theorem setI_reported (s : State) (w : Word) : (setI s w).reported = s.reported := rfl
@[simp] theorem setI_port (s : State) (w : Word) : (setI s w).port = s.port := rfl
@[simp] theorem setI_upcoming (s : State) (w : Word) : (setI s w).upcoming = s.upcoming := rfl
@[simp] theorem setI_drawn (s : State) (w : Word) : (setI s w).drawn = s.drawn := rfl

/-! ### setDT -/

@[simp] theorem setDT_mem (s : State) (b : Byte) : (setDT s b).mem = s.mem := rfl
@[simp] theorem setDT_V (s : State) (b : Byte) : (setDT s b).V = s.V := rfl
@[simp] theorem setDT_I (s : State) (b : Byte) : (setDT s b).I = s.I := rfl
@[simp] theorem setDT_pc (s : State) (b : Byte) : (setDT s b).pc = s.pc := rfl
@[simp] theorem setDT_stack (s : State) (b : Byte) : (setDT s b).stack = s.stack := rfl
@[simp] theorem setDT_sp (s : State) (b : Byte) : (setDT s b).sp = s.sp := rfl
@[simp] theorem setDT_DT (s : State) (b : Byte) : (setDT s b).DT = b := rfl
@[simp] theorem setDT_ST (s : State) (b : Byte) : (setDT s b).ST = s.ST := rfl
@[simp] theorem setDT_display (s : State) (b : Byte) : (setDT s b).display = s.display := rfl
@[simp] theorem setDT_halted (s : State) (b : Byte) : (setDT s b).halted = s.halted := rfl
@[simp] theorem setDT_out (s : State) (b : Byte) : (setDT s b).out = s.out := rfl
@[simp] theorem setDT_reported (s : State) (b : Byte) : (setDT s b).reported = s.reported := rfl
@[simp] theorem setDT_port (s : State) (b : Byte) : (setDT s b).port = s.port := rfl
@[simp] theorem setDT_upcoming (s : State) (b : Byte) : (setDT s b).upcoming = s.upcoming := rfl
@[simp] theorem setDT_drawn (s : State) (b : Byte) : (setDT s b).drawn = s.drawn := rfl

/-! ### setST -/

@[simp] theorem setST_mem (s : State) (b : Byte) : (setST s b).mem = s.mem := rfl
@[simp] theorem setST_V (s : State) (b : Byte) : (setST s b).V = s.V := rfl
@[simp] theorem setST_I (s : State) (b : Byte) : (setST s b).I = s.I := rfl
@[simp] theorem setST_pc (s : State) (b : Byte) : (setST s b).pc = s.pc := rfl
@[simp] theorem setST_stack (s : State) (b : Byte) : (setST s b).stack = s.stack := rfl
@[simp] theorem setST_sp (s : State) (b : Byte) : (setST s b).sp = s.sp := rfl
@[simp] theorem setST_DT (s : State) (b : Byte) : (setST s b).DT = s.DT := rfl
@[simp] theorem setST_ST (s : State) (b : Byte) : (setST s b).ST = b := rfl
@[simp] theorem setST_display (s : State) (b : Byte) : (setST s b).display = s.display := rfl
@[simp] theorem setST_halted (s : State) (b : Byte) : (setST s b).halted = s.halted := rfl
@[simp] theorem setST_out (s : State) (b : Byte) : (setST s b).out = s.out := rfl
@[simp] theorem setST_reported (s : State) (b : Byte) : (setST s b).reported = s.reported := rfl
@[simp] theorem setST_port (s : State) (b : Byte) : (setST s b).port = s.port := rfl
@[simp] theorem setST_upcoming (s : State) (b : Byte) : (setST s b).upcoming = s.upcoming := rfl
@[simp] theorem setST_drawn (s : State) (b : Byte) : (setST s b).drawn = s.drawn := rfl

/-! ### storeBytes -/

@[simp] theorem storeBytes_mem (s : State) (a : Nat) (l : List Byte) : (storeBytes s a l).mem = memWriteList s.mem a l := rfl
@[simp] theorem storeBytes_V (s : State) (a : Nat) (l : List Byte) : (storeBytes s a l).V = s.V := rfl
@[simp] theorem storeBytes_I (s : State) (a : Nat) (l : List Byte) : (storeBytes s a l).I = s.I := rfl
@[simp] theorem storeBytes_pc (s : State) (a : Nat) (l : List Byte) : (storeBytes s a l).pc = s.pc := rfl
@[simp] theorem storeBytes_stack (s : State) (a : Nat) (l : List Byte) : (storeBytes s a l).stack = s.stack := rfl
@[simp] theorem storeBytes_sp (s : State) (a : Nat) (l : List Byte) : (storeBytes s a l).sp = s.sp := rfl
@[simp] theorem storeBytes_DT (s : State) (a : Nat) (l : List Byte) : (storeBytes s a l).DT = s.DT := rfl
@[simp] theorem storeBytes_ST (s : State) (a : Nat) (l : List Byte) : (storeBytes s a l).ST = s.ST := rfl
@[simp] theorem storeBytes_display (s : State) (a : Nat) (l : List Byte) : (storeBytes s a l).display = s.display := rfl
@[simp] theorem storeBytes_halted (s : State) (a : Nat) (l : List Byte) : (storeBytes s a l).halted = s.halted := rfl
@[simp] theorem storeBytes_out (s : State) (a : Nat) (l : List Byte) : (storeBytes s a l).out = s.out := rfl
@[simp] theorem storeBytes_reported (s : State) (a : Nat) (l : List Byte) : (storeBytes s a l).reported = s.reported := rfl
@[simp] theorem storeBytes_port (s : State) (a : Nat) (l : List Byte) : (storeBytes s a l).port = s.port := rfl
@[simp] theorem storeBytes_upcoming (s : State) (a : Nat) (l : List Byte) : (storeBytes s a l).upcoming = s.upcoming := rfl
@[simp] theorem storeBytes_drawn (s : State) (a : Nat) (l : List Byte) : (storeBytes s a l).drawn = s.drawn := rfl

/-! ### clearDisplay -/

@[simp] theorem clearDisplay_mem (s : State) : (clearDisplay s).mem = s.mem := rfl
@[simp] theorem clearDisplay_V (s : State) : (clearDisplay s).V = s.V := rfl
@[simp] theorem clearDisplay_I (s : State) : (clearDisplay s).I = s.I := rfl
@[simp] theorem clearDisplay_pc (s : State) : (clearDisplay s).pc = s.pc := rfl
@[simp] theorem clearDisplay_stack (s : State) : (clearDisplay s).stack = s.stack := rfl
@[simp] theorem clearDisplay_sp (s : State) : (clearDisplay s).sp = s.sp := rfl
@[simp] theorem clearDisplay_DT (s : State) : (clearDisplay s).DT = s.DT := rfl
@[simp] theorem clearDisplay_ST (s : State) : (clearDisplay s).ST = s.ST := rfl
@[simp] theorem clearDisplay_display (s : State) : (clearDisplay s).display = Vector.replicate 32 0 := rfl
@[simp] theorem clearDisplay_halted (s : State) : (clearDisplay s).halted = s.halted := rfl
@[simp] theorem clearDisplay_out (s : State) : (clearDisplay s).out = s.out := rfl
@[simp] theorem clearDisplay_reported (s : State) : (clearDisplay s).reported = s.reported := rfl
@[simp] theorem clearDisplay_port (s : State) : (clearDisplay s).port = s.port := rfl
@[simp] theorem clearDisplay_upcoming (s : State) : (clearDisplay s).upcoming = s.upcoming := rfl
@[simp] theorem clearDisplay_drawn (s : State) : (clearDisplay s).drawn = s.drawn := rfl

/-! ### latch -/

@[simp] theorem latch_mem (s : State) (st : Status) (e : Option Event) (d : Bool) : (latch s st e d).mem = s.mem := rfl
@[simp] theorem latch_V (s : State) (st : Status) (e : Option Event) (d : Bool) : (latch s st e d).V = s.V := rfl
@[simp] theorem latch_I (s : State) (st : Status) (e : Option Event) (d : Bool) : (latch s st e d).I = s.I := rfl
@[simp] theorem latch_pc (s : State) (st : Status) (e : Option Event) (d : Bool) : (latch s st e d).pc = s.pc := rfl
@[simp] theorem latch_stack (s : State) (st : Status) (e : Option Event) (d : Bool) : (latch s st e d).stack = s.stack := rfl
@[simp] theorem latch_sp (s : State) (st : Status) (e : Option Event) (d : Bool) : (latch s st e d).sp = s.sp := rfl
@[simp] theorem latch_DT (s : State) (st : Status) (e : Option Event) (d : Bool) : (latch s st e d).DT = s.DT := rfl
@[simp] theorem latch_ST (s : State) (st : Status) (e : Option Event) (d : Bool) : (latch s st e d).ST = s.ST := rfl
@[simp] theorem latch_display (s : State) (st : Status) (e : Option Event) (d : Bool) : (latch s st e d).display = s.display := rfl
@[simp] theorem latch_halted (s : State) (st : Status) (e : Option Event) (d : Bool) : (latch s st e d).halted = s.halted := rfl
@[simp] theorem latch_out (s : State) (st : Status) (e : Option Event) (d : Bool) : (latch s st e d).out = { status := st, event := e, drawOccurred := d, beep := false } := rfl
@[simp] theorem latch_reported (s : State) (st : Status) (e : Option Event) (d : Bool) : (latch s st e d).reported = s.reported := rfl
@[simp] theorem latch_port (s : State) (st : Status) (e : Option Event) (d : Bool) : (latch s st e d).port = s.port := rfl
@[simp] theorem latch_upcoming (s : State) (st : Status) (e : Option Event) (d : Bool) : (latch s st e d).upcoming = s.upcoming := rfl
@[simp] theorem latch_drawn (s : State) (st : Status) (e : Option Event) (d : Bool) : (latch s st e d).drawn = s.drawn := rfl

/-! ### tick -/

@[simp] theorem tick_mem (s : State) : (tick s).mem = s.mem := rfl
@[simp] theorem tick_V (s : State) : (tick s).V = s.V := rfl
@[simp] theorem tick_I (s : State) : (tick s).I = s.I := rfl
@[simp] theorem tick_pc (s : State) : (tick s).pc = s.pc := rfl
@[simp] theorem tick_stack (s : State) : (tick s).stack = s.stack := rfl
@[simp] theorem tick_sp (s : State) : (tick s).sp = s.sp := rfl
@[simp] theorem tick_DT (s : State) : (tick s).DT = countDown s.DT := rfl
@[simp] theorem tick_ST (s : State) : (tick s).ST = countDown s.ST := rfl
@[simp] theorem tick_display (s : State) : (tick s).display = s.display := rfl
@[simp] theorem tick_halted (s : State) : (tick s).halted = s.halted := rfl
@[simp] theorem tick_out (s : State) : (tick s).out = { s.out with beep := s.ST == 1 } := rfl
@[simp] theorem tick_reported (s : State) : (tick s).reported = s.reported := rfl
@[simp] theorem tick_port (s : State) : (tick s).port = s.port := rfl
@[simp] theorem tick_upcoming (s : State) : (tick s).upcoming = s.upcoming := rfl
@[simp] theorem tick_drawn (s : State) : (tick s).drawn = s.drawn := rfl

/-! ### The registers after a write -/

/-- Reading a register after one register was written (R21). -/
@[simp] theorem writeV_get (s : State) (x : Reg) (b : Byte) (j : Nat) (hj : j < 16) :
    (writeV s x b).V[j] = if j = x.val then b else s.V[j] := by
  simp [writeV, Vector.getElem_set, eq_comm]

/-- Reading a register after the flag was written (R22). -/
@[simp] theorem writeFlag_get (s : State) (f : Bool) (j : Nat) (hj : j < 16) :
    (writeFlag s f).V[j] = if j = 15 then flagByte f else s.V[j] := by
  simp [writeFlag, regF]

/-- Flag first, result second: at `x` the result, elsewhere at `V[0xF]` the flag (R130). -/
@[simp] theorem writeFlagThen_get (s : State) (f : Bool) (x : Reg) (b : Byte) (j : Nat) (hj : j < 16) :
    (writeFlagThen s f x b).V[j] = if j = x.val then b else if j = 15 then flagByte f else s.V[j] := by
  simp [writeFlagThen]

@[simp] theorem readV_eq (s : State) (x : Reg) : readV s x = s.V[x] := rfl

@[simp] theorem flagByte_true : flagByte true = 1 := rfl

@[simp] theorem flagByte_false : flagByte false = 0 := rfl

/-! ### The host's turn -/

/-- The next cycle's inputs change no state of the core and no output (R34, R35). -/
theorem nextInputs_eq (s : State) :
    nextInputs s = { s with port := (nextInputs s).port, upcoming := (nextInputs s).upcoming, drawn := (nextInputs s).drawn } := by
  unfold nextInputs; split <;> rfl

@[simp] theorem nextInputs_mem (s : State) : (nextInputs s).mem = s.mem := by
  unfold nextInputs; split <;> rfl

@[simp] theorem nextInputs_V (s : State) : (nextInputs s).V = s.V := by
  unfold nextInputs; split <;> rfl

@[simp] theorem nextInputs_I (s : State) : (nextInputs s).I = s.I := by
  unfold nextInputs; split <;> rfl

@[simp] theorem nextInputs_pc (s : State) : (nextInputs s).pc = s.pc := by
  unfold nextInputs; split <;> rfl

@[simp] theorem nextInputs_stack (s : State) : (nextInputs s).stack = s.stack := by
  unfold nextInputs; split <;> rfl

@[simp] theorem nextInputs_sp (s : State) : (nextInputs s).sp = s.sp := by
  unfold nextInputs; split <;> rfl

@[simp] theorem nextInputs_DT (s : State) : (nextInputs s).DT = s.DT := by
  unfold nextInputs; split <;> rfl

@[simp] theorem nextInputs_ST (s : State) : (nextInputs s).ST = s.ST := by
  unfold nextInputs; split <;> rfl

@[simp] theorem nextInputs_display (s : State) : (nextInputs s).display = s.display := by
  unfold nextInputs; split <;> rfl

@[simp] theorem nextInputs_halted (s : State) : (nextInputs s).halted = s.halted := by
  unfold nextInputs; split <;> rfl

@[simp] theorem nextInputs_out (s : State) : (nextInputs s).out = s.out := by
  unfold nextInputs; split <;> rfl

@[simp] theorem nextInputs_reported (s : State) : (nextInputs s).reported = s.reported := by
  unfold nextInputs; split <;> rfl

/-- The head of the list the host settled is what it presents next. -/
theorem nextInputs_cons (s : State) (i : Inputs) (rest : List Inputs) (h : s.upcoming = i :: rest) :
    nextInputs s = { s with port := i, upcoming := rest } := by
  simp [nextInputs, h]

/-- With no settled inputs left the next ones are free values. -/
theorem nextInputs_nil (s : State) (h : s.upcoming = []) :
    nextInputs s = { s with port := { keys := Config.hostKeys s.drawn, rnd := Config.hostRnd s.drawn }, drawn := s.drawn + 1 } := by
  simp [nextInputs, h]

end Sys2Proof.Machine
end

