-- ==== Sys2Proof/Laws/Ops.lean ====
section
/-! SUPPORT. Sys2Proof/Laws/Ops.lean: one lemma per shared operation of Machine/Ops.lean and Machine/Flags.lean, saying once everything it does. -/

namespace Sys2Proof.Machine

/-! ### How an execute phase ends -/

theorem normal_eq (s : State) : normal s = .next { s with out := quietOutputs } := rfl

theorem normalDraw_eq (s : State) : normalDraw s = .next { s with out := { quietOutputs with drawOccurred := true } } := rfl

theorem waiting_eq (s : State) : waiting s = .next { s with out := { quietOutputs with status := .waiting } } := rfl

/-- A fatal error commits nothing but `halted <- 1` (R102, R203). -/
theorem raiseError_fatal (sp : Space) (a : Nat) (s : State) :
    raiseError (.addressOutOfRange sp a) s =
      { s with halted := true, reported := true,
               out := { status := .halted, event := some (.addressOutOfRange sp a), drawOccurred := false, beep := false } } :=
  rfl

/-- A reported error writes nothing but `pc <- pc + 2` (R99). -/
theorem raiseError_reported {e : Event} (he : e.fatal = false) (s : State) :
    raiseError e s =
      { s with pc := s.pc + 2, reported := true,
               out := { status := .completed, event := some e, drawOccurred := false, beep := false } } := by
  cases e <;> first | rfl | simp [Event.fatal] at he

@[simp] theorem mapNext_next (f : State → State) (s : State) : mapNext f (.next s) = .next (f s) := rfl

/-! ### The stack -/

/-- A push with room (R25, R26). -/
theorem push_room {s : State} (w : Word) (h : s.sp.val < 16) :
    push s w = some { s with stack := s.stack.set s.sp.val w h, sp := ⟨s.sp.val + 1, by omega⟩ } := by
  simp [push, h]

/-- A push on a full stack (R204). -/
theorem push_full {s : State} (w : Word) (h : s.sp.val = 16) : push s w = none := by
  simp [push, h]

/-- A pop of an occupied slot (R25, R26). -/
theorem pop_some {s : State} (h : 0 < s.sp.val) :
    pop s = some (s.stack[s.sp.val - 1], { s with sp := ⟨s.sp.val - 1, by omega⟩ }) := by
  have : s.sp.val ≠ 0 := by omega
  simp only [pop, if_neg this]

/-- A pop of an empty stack (R205). -/
theorem pop_empty {s : State} (h : s.sp.val = 0) : pop s = none := by
  simp only [pop, if_pos h]

/-! ### The register block -/

/-- Registers below `k` take their bytes and the rest keep their values (R156). -/
theorem loadInto_get (m : Memory) (a k : Nat) (hk : k ≤ 16) (V : Vector Byte 16) (j : Nat) (hj : j < 16) :
    (loadInto m a k V)[j] = if j < k then memRead m (a + j) else V[j] := by
  induction k with
  | zero => simp [loadInto]
  | succ k ih =>
    simp only [loadInto, Vector.getElem_setIfInBounds]
    rcases Nat.lt_trichotomy j k with h | h | h
    · rw [if_neg (by omega), ih (by omega), if_pos h, if_pos (by omega)]
    · subst h; simp
    · rw [if_neg (by omega), ih (by omega), if_neg (by omega), if_neg (by omega)]

/-! ### Flags as statements about exact integers -/

theorem carryOut_iff (a b : Byte) : carryOut a b = true ↔ 255 < a.toNat + b.toNat := by
  simp [carryOut]

theorem noBorrow_iff (a b : Byte) : noBorrow a b = true ↔ b.toNat ≤ a.toNat := by
  simp [noBorrow]

theorem shiftedOutRight_eq (a : Byte) : shiftedOutRight a = decide (a.toNat % 2 = 1) := by
  simp [shiftedOutRight, BitVec.getLsbD, Nat.testBit_zero]

theorem shiftedOutLeft_eq (a : Byte) : shiftedOutLeft a = decide (128 ≤ a.toNat) := by
  have h := a.isLt
  simp only [shiftedOutLeft, BitVec.getLsbD, Nat.testBit_eq_decide_div_mod_eq]
  simp only [decide_eq_decide]
  omega

end Sys2Proof.Machine
end

