-- ==== Sys2Proof/Laws/Operands.lean ====
section
/-! SUPPORT. Sys2Proof/Laws/Operands.lean: what each operand form of Machine/Operands.lean yields. -/

namespace Sys2Proof.Machine

/-- An access of `k` bytes is in range exactly when it needs none or its last byte lies below 4096 (R53). -/
theorem outOfRange_none_iff (s : State) (k : Nat) :
    outOfRange s k = none ↔ k = 0 ∨ s.I.toNat + k ≤ 4096 := by
  unfold outOfRange effAddr Config.memSize
  split <;> simp <;> omega

/-- An access in range does what the instruction does (R53). -/
theorem dataAccess_inRange {s : State} {k : Nat} (done : Result) (h : k = 0 ∨ s.I.toNat + k ≤ 4096) :
    dataAccess s k done = done := by
  simp [dataAccess, (outOfRange_none_iff s k).2 h]

/-- An access out of range is fatal at the lowest offending address, before any effect (R53, R203). -/
theorem dataAccess_outOfRange {s : State} {k : Nat} (done : Result) (hk : 0 < k) (h : 4096 < s.I.toNat + k) :
    dataAccess s k done = .next (raiseError (.addressOutOfRange .data (max s.I.toNat 4096)) s) := by
  have : outOfRange s k = some (max s.I.toNat 4096) := by
    unfold outOfRange effAddr Config.memSize
    rw [if_pos (by omega)]
  simp [dataAccess, this, raised]

/-- Either way: the instruction's effect, or the fatal error with nothing committed (R53). -/
theorem dataAccess_cases (s : State) (k : Nat) (done : Result) :
    dataAccess s k done = done ∨ ∃ a, dataAccess s k done = .next (raiseError (.addressOutOfRange .data a) s) := by
  unfold dataAccess raised
  split
  · exact .inr ⟨_, rfl⟩
  · exact .inl rfl

theorem keyAccess_inRange {s : State} {x : Reg} (done : Result) (h : s.V[x].toNat ≤ 15) :
    keyAccess s x done = done := by
  unfold keyAccess
  rw [if_neg]
  simpa using h

theorem keyAccess_outOfRange {s : State} {x : Reg} (done : Result) (h : 15 < s.V[x].toNat) :
    keyAccess s x done = .next (raiseError (.addressOutOfRange .key s.V[x].toNat) s) := by
  unfold keyAccess
  rw [if_pos]
  · rfl
  · simpa using h

theorem keyAccess_cases (s : State) (x : Reg) (done : Result) :
    keyAccess s x done = done ∨ ∃ a, keyAccess s x done = .next (raiseError (.addressOutOfRange .key a) s) := by
  unfold keyAccess raised
  split
  · exact .inr ⟨_, rfl⟩
  · exact .inl rfl

/-! ### The least pressed key -/

theorem leastKeyFrom_none (keys : BitVec 16) (k n : Nat) :
    leastKeyFrom keys k n = none ↔ ∀ i, k ≤ i → i < k + n → keys.getLsbD i = false := by
  induction n generalizing k with
  | zero => simp [leastKeyFrom]; intro i h h'; omega
  | succ n ih =>
    unfold leastKeyFrom
    split <;> rename_i hk
    · simp only [reduceCtorEq, false_iff, not_forall]
      exact ⟨k, le_refl _, by omega, by simp [hk]⟩
    · rw [ih]
      constructor
      · intro h i hi hi'
        rcases eq_or_lt_of_le hi with rfl | hlt
        · simpa using hk
        · exact h i hlt (by omega)
      · exact fun h i hi hi' => h i (by omega) (by omega)

theorem leastKeyFrom_some {keys : BitVec 16} {k n j : Nat} (h : leastKeyFrom keys k n = some j) :
    k ≤ j ∧ j < k + n ∧ keys.getLsbD j = true ∧ ∀ i, k ≤ i → i < j → keys.getLsbD i = false := by
  induction n generalizing k with
  | zero => simp [leastKeyFrom] at h
  | succ n ih =>
    unfold leastKeyFrom at h
    split at h <;> rename_i hk
    · obtain rfl := Option.some.inj h
      exact ⟨le_refl _, by omega, hk, fun i hi hi' => by omega⟩
    · obtain ⟨h1, h2, h3, h4⟩ := ih h
      refine ⟨by omega, by omega, h3, fun i hi hi' => ?_⟩
      rcases eq_or_lt_of_le hi with rfl | hlt
      · simpa using hk
      · exact h4 i hlt hi'

/-- The poll finds nothing exactly when no key is pressed (R183). -/
theorem leastKey_none_iff (keys : BitVec 16) : leastKey keys = none ↔ keys = 0 := by
  rw [leastKey, leastKeyFrom_none]
  constructor
  · intro h
    ext i hi
    rw [← BitVec.getLsbD_eq_getElem, h i (Nat.zero_le _) (by simpa [Config.numKeys] using hi)]
    simp
  · rintro rfl i - -
    simp

/-- What the poll finds is the least pressed key (R183). -/
theorem leastKey_some {keys : BitVec 16} {j : Nat} (h : leastKey keys = some j) :
    j < 16 ∧ keys.getLsbD j = true ∧ ∀ i, i < j → keys.getLsbD i = false := by
  obtain ⟨-, h2, h3, h4⟩ := leastKeyFrom_some h
  exact ⟨by simpa [Config.numKeys] using h2, h3, fun i hi => h4 i (Nat.zero_le _) hi⟩

/-! ### The stored blocks -/

@[simp] theorem regBlock_length (s : State) (x : Reg) : (regBlock s x).length = x.val + 1 := by
  simp [regBlock]

theorem regBlock_get (s : State) (x : Reg) (i : Nat) (hi : i < (regBlock s x).length) :
    (regBlock s x)[i] = s.V[i]'(by simp at hi; omega) := by
  simp [regBlock]

@[simp] theorem bcdDigits_length (b : Byte) : (bcdDigits b).length = 3 := rfl

end Sys2Proof.Machine
end

