-- ==== Sys2Proof/Laws/Display.lean ====
section
/-! SUPPORT. Sys2Proof/Laws/Display.lean: what drawing a sprite does to a pixel and to the collision flag (R172, R174). -/

namespace Sys2Proof.Machine

/-- A pixel nothing hits stays as it was. -/
theorem flip_of_not {A B : Prop} (hB : ¬ B) : (A ↔ ¬ (A ↔ B)) := by tauto

/-- Two disjoint hits on a pixel are one hit by either. -/
theorem flip_flip {A B C : Prop} (h : B → ¬ C) : (¬ (¬ (A ↔ B) ↔ C)) ↔ ¬ (A ↔ (B ∨ C)) := by tauto

/-- Toggling one pixel flips it and leaves every other one alone (R172). -/
theorem pixelOf_togglePixel (d : Vector (BitVec 64) 32) {i : Nat} (hi : i < 2048) (p : Nat) :
    pixelOf (togglePixel d i) p = (pixelOf d p ^^ decide (p = i)) := by
  have hrow : i / 64 < 32 := by omega
  have hcol : i % 64 < 64 := Nat.mod_lt _ (by decide)
  simp only [pixelOf, togglePixel, Config.dispWidth]
  by_cases hp : p / 64 < 32
  · rw [Vector.getElem?_eq_getElem hp, Vector.getElem?_eq_getElem hp, Vector.getElem?_eq_getElem hrow]
    simp only [Option.getD_some, Vector.getElem_setIfInBounds]
    by_cases hr : i / 64 = p / 64
    · rw [if_pos hr, BitVec.getLsbD_xor, BitVec.getLsbD_twoPow]
      simp only [hr]
      congr 1
      by_cases hc : i % 64 = p % 64
      · have hpi : p = i := by omega
        subst hpi
        simp [hcol]
      · simp [hc, show p ≠ i by omega]
    · rw [if_neg hr]
      simp [show p ≠ i by rintro rfl; exact hr rfl]
  · rw [Vector.getElem?_eq_none (by omega), Vector.getElem?_eq_none (by omega)]
    simp [show p ≠ i by omega]

/-- A clear display has no lit pixel (R171). -/
theorem pixelOf_clear (p : Nat) : pixelOf (Vector.replicate 32 0) p = false := by
  simp only [pixelOf, Vector.getElem?_replicate]
  split <;> simp

/-- The pixel index is always on the display. -/
theorem pixelIndex_lt (cx cy row col : Nat) : pixelIndex cx cy row col < 2048 := by
  simp only [pixelIndex, Config.numPixels, Config.dispWidth, Config.dispHeight]
  omega

/-- Within one sprite no two bits share a pixel (R172 (f)). -/
theorem pixelIndex_inj {cx cy r c r' c' : Nat} (hr : r < 15) (hr' : r' < 15) (hc : c < 8) (hc' : c' < 8)
    (h : pixelIndex cx cy r c = pixelIndex cx cy r' c') : r = r' ∧ c = c' := by
  simp only [pixelIndex, Config.numPixels, Config.dispWidth, Config.dispHeight] at h
  omega

/-- The last `n` columns of a row: each set bit toggles its pixel, and collides when that pixel was lit. -/
theorem plotCols_spec (b : Byte) (cx cy row n : Nat) (hr : row < 15) (hn : n ≤ 8) (c : Canvas) :
    (∀ p, pixelOf (plotCols b cx cy row n c).display p = true ↔
      ¬ (pixelOf c.display p = true ↔
        ∃ col, 8 - n ≤ col ∧ col < 8 ∧ spriteBit b col = true ∧ pixelIndex cx cy row col = p)) ∧
    ((plotCols b cx cy row n c).collision = true ↔
      c.collision = true ∨ ∃ col, 8 - n ≤ col ∧ col < 8 ∧ spriteBit b col = true ∧
        pixelOf c.display (pixelIndex cx cy row col) = true) := by
  induction n generalizing c with
  | zero =>
    constructor
    · intro p
      rw [plotCols]
      have : ¬ ∃ col, 8 - 0 ≤ col ∧ col < 8 ∧ spriteBit b col = true ∧ pixelIndex cx cy row col = p := by
        rintro ⟨col, h1, h2, -⟩; omega
      exact flip_of_not this
    · rw [plotCols]
      have : ¬ ∃ col, 8 - 0 ≤ col ∧ col < 8 ∧ spriteBit b col = true ∧
          pixelOf c.display (pixelIndex cx cy row col) = true := by
        rintro ⟨col, h1, h2, -⟩; omega
      simp [this]
  | succ n ih =>
    have hsplit : ∀ P : Nat → Prop, (∃ col, 8 - (n + 1) ≤ col ∧ col < 8 ∧ P col) ↔
        (P (7 - n) ∨ ∃ col, 8 - n ≤ col ∧ col < 8 ∧ P col) := by
      intro P
      constructor
      · rintro ⟨col, h1, h2, h3⟩
        rcases eq_or_ne col (7 - n) with rfl | hne
        · exact .inl h3
        · exact .inr ⟨col, by omega, h2, h3⟩
      · rintro (h | ⟨col, h1, h2, h3⟩)
        · exact ⟨7 - n, by omega, by omega, h⟩
        · exact ⟨col, by omega, h2, h3⟩
    obtain ⟨ih1, ih2⟩ := ih (by omega) (if spriteBit b (7 - n) then plot c (pixelIndex cx cy row (7 - n)) else c)
    rw [plotCols]
    constructor
    · intro p
      rw [ih1 p, hsplit]
      by_cases hb : spriteBit b (7 - n) = true
      · simp only [hb, if_true, plot, pixelOf_togglePixel _ (pixelIndex_lt _ _ _ _), true_and]
        by_cases hp : p = pixelIndex cx cy row (7 - n)
        · have hno : ¬ ∃ col, 8 - n ≤ col ∧ col < 8 ∧ spriteBit b col = true ∧ pixelIndex cx cy row col = p := by
            rintro ⟨col, h1, h2, -, h4⟩
            have := (pixelIndex_inj hr hr h2 (by omega) (h4.trans hp)).2
            omega
          subst hp
          simp only [hno, decide_true, Bool.xor_true, Bool.not_eq_true', true_or]
          cases pixelOf c.display (pixelIndex cx cy row (7 - n)) <;> simp
        · simp [hp, Ne.symm hp]
      · simp [hb]
    · rw [ih2, hsplit]
      by_cases hb : spriteBit b (7 - n) = true
      · simp only [hb, if_true, plot, true_and, Bool.or_eq_true, or_assoc]
        refine or_congr_right (or_congr_right ?_)
        refine exists_congr fun col => and_congr_right fun h1 => and_congr_right fun h2 => and_congr_right fun _ => ?_
        rw [pixelOf_togglePixel _ (pixelIndex_lt _ _ _ _)]
        have : pixelIndex cx cy row col ≠ pixelIndex cx cy row (7 - n) := by
          intro h
          have := (pixelIndex_inj hr hr h2 (by omega) h).2
          omega
        simp [this]
      · simp [hb]

/-- Sprite bit (`r`, `col`) of the rows `bytes`, the first of which is row `row`, is set. -/
def rowBit (bytes : List Byte) (row r col : Nat) : Prop :=
  ∃ k, r = row + k ∧ ∃ h : k < bytes.length, spriteBit bytes[k] col = true

/-- All rows: each set bit of the sprite toggles its pixel, and collides when that pixel was lit before the draw. -/
theorem plotRows_spec (bytes : List Byte) (cx cy row : Nat) (hr : row + bytes.length ≤ 15) (c : Canvas) :
    (∀ p, pixelOf (plotRows bytes cx cy row c).display p = true ↔
      ¬ (pixelOf c.display p = true ↔
        ∃ r col, rowBit bytes row r col ∧ col < 8 ∧ pixelIndex cx cy r col = p)) ∧
    ((plotRows bytes cx cy row c).collision = true ↔
      c.collision = true ∨ ∃ r col, rowBit bytes row r col ∧ col < 8 ∧
        pixelOf c.display (pixelIndex cx cy r col) = true) := by
  induction bytes generalizing row c with
  | nil => simp [plotRows, rowBit]
  | cons b rest ih =>
    simp only [List.length_cons] at hr
    obtain ⟨hc1, hc2⟩ := plotCols_spec b cx cy row 8 (by omega) (le_refl _) c
    obtain ⟨ih1, ih2⟩ := ih (row + 1) (by omega) (plotCols b cx cy row 8 c)
    have hbit : ∀ r col, rowBit (b :: rest) row r col ↔
        ((r = row ∧ spriteBit b col = true) ∨ rowBit rest (row + 1) r col) := by
      intro r col
      constructor
      · rintro ⟨k, rfl, hk, hb⟩
        cases k with
        | zero => exact .inl ⟨rfl, by simpa using hb⟩
        | succ k => exact .inr ⟨k, by omega, by simpa using hk, by simpa using hb⟩
      · rintro (⟨rfl, hb⟩ | ⟨k, rfl, hk, hb⟩)
        · exact ⟨0, rfl, by simp, by simpa using hb⟩
        · exact ⟨k + 1, by omega, by simpa using hk, by simpa using hb⟩
    have hrow : ∀ r col, rowBit rest (row + 1) r col → row < r ∧ r < 15 := by
      rintro r col ⟨k, rfl, hk, -⟩
      omega
    have hsplit : ∀ P : Nat → Nat → Prop, (∃ r col, rowBit (b :: rest) row r col ∧ col < 8 ∧ P r col) ↔
        ((∃ col, 8 - 8 ≤ col ∧ col < 8 ∧ spriteBit b col = true ∧ P row col) ∨
          ∃ r col, rowBit rest (row + 1) r col ∧ col < 8 ∧ P r col) := by
      intro P
      constructor
      · rintro ⟨r, col, h1, h2, h3⟩
        rcases (hbit r col).1 h1 with ⟨rfl, hb⟩ | h
        · exact .inl ⟨col, by omega, h2, hb, h3⟩
        · exact .inr ⟨r, col, h, h2, h3⟩
      · rintro (⟨col, -, h2, hb, h3⟩ | ⟨r, col, h, h2, h3⟩)
        · exact ⟨row, col, (hbit _ _).2 (.inl ⟨rfl, hb⟩), h2, h3⟩
        · exact ⟨r, col, (hbit _ _).2 (.inr h), h2, h3⟩
    rw [plotRows]
    constructor
    · intro p
      rw [ih1 p, hc1 p, hsplit]
      refine flip_flip ?_
      rintro ⟨col', -, h2', -, h3'⟩ ⟨r, col, h, h2, h3⟩
      have hb := hrow r col h
      have := (pixelIndex_inj hb.2 (by omega) h2 h2' (h3.trans h3'.symm)).1
      omega
    · rw [ih2, hc2, hsplit, or_assoc]
      refine or_congr_right (or_congr_right ?_)
      refine exists_congr fun r => exists_congr fun col => and_congr_right fun h => and_congr_right fun h2 => ?_
      rw [hc1]
      have hb := hrow r col h
      have : ¬ ∃ col', 8 - 8 ≤ col' ∧ col' < 8 ∧ spriteBit b col' = true ∧
          pixelIndex cx cy row col' = pixelIndex cx cy r col := by
        rintro ⟨col', -, h2', -, h3'⟩
        have := (pixelIndex_inj (by omega) hb.2 h2' h2 h3').1
        omega
      exact (flip_of_not this).symm

end Sys2Proof.Machine
end

