-- ==== Sys2Proof/Laws/Step.lean ====
section
/-! SUPPORT. Sys2Proof/Laws/Step.lean: what a cycle can be, said once; what follows an execute phase. -/

namespace Sys2Proof.Machine

/-- Fetch in range (R91). -/
theorem fetch_ok {s : State} (h : s.pc.toNat ≤ 4094) :
    fetch s = .ok (wordOfBytes (memRead s.mem s.pc.toNat) (memRead s.mem (s.pc.toNat + 1))) := by
  unfold fetch Config.memSize
  rw [if_neg (by omega)]

/-- Fetch out of range (R91). -/
theorem fetch_error {s : State} (h : 4095 ≤ s.pc.toNat) : fetch s = .error s.pc.toNat := by
  unfold fetch Config.memSize
  rw [if_pos (by omega)]

/-- A fetch that answers a word answers the one at `pc`, and `pc` is in range. -/
theorem fetch_ok_iff (s : State) (w : Word) :
    fetch s = .ok w ↔
      s.pc.toNat ≤ 4094 ∧ w = wordOfBytes (memRead s.mem s.pc.toNat) (memRead s.mem (s.pc.toNat + 1)) := by
  unfold fetch Config.memSize
  split
  · simp; omega
  · simp only [Except.ok.injEq]
    constructor
    · exact fun h => ⟨by omega, h.symm⟩
    · exact fun h => h.2.symm

/-- What a cycle can be (R104): begun halted, fetch out of range, unrecognized word, or the decoded instruction's execute phase. -/
theorem step_cases {s t : State} (h : step s = .next t) :
    (s.halted = true ∧ t = haltedCycle s) ∨
    (s.halted = false ∧ 4095 ≤ s.pc.toNat ∧ t = endCycle (fetchErrorCycle s.pc.toNat s)) ∨
    (∃ w e, s.halted = false ∧ fetch s = .ok w ∧ decode w = .error e ∧ t = endCycle (unknownCycle w s)) ∨
    (∃ w i u, s.halted = false ∧ fetch s = .ok w ∧ decode w = .ok i ∧ exec i s = .next u ∧ t = endCycle u) := by
  unfold step at h
  split at h
  · exact .inl ⟨‹_›, (Host.Outcome.next.inj h).symm⟩
  · rename_i hh
    have hh : s.halted = false := by simpa using hh
    split at h
    · rename_i a hf
      have hpc : 4095 ≤ s.pc.toNat := by
        by_contra hc
        rw [fetch_ok (by omega)] at hf
        cases hf
      rw [fetch_error hpc] at hf
      cases hf
      exact .inr (.inl ⟨hh, hpc, (Host.Outcome.next.inj h).symm⟩)
    · rename_i w hf
      split at h
      · exact .inr (.inr (.inl ⟨w, _, hh, hf, ‹_›, (Host.Outcome.next.inj h).symm⟩))
      · rename_i i hd
        cases he : exec i s with
        | next u =>
          rw [he] at h
          exact .inr (.inr (.inr ⟨w, i, u, hh, hf, hd, he, (Host.Outcome.next.inj h).symm⟩))
        | fault r => rw [he] at h; cases h
        | refused r => rw [he] at h; cases h

/-- After a fatal execute phase nothing ticks (R102). -/
theorem endCycle_fatal {u : State} (h : u.halted = true) : endCycle u = nextInputs u := by
  simp [endCycle, h]

/-- After any other execute phase the timers tick (R100). -/
theorem endCycle_live {u : State} (h : u.halted = false) : endCycle u = nextInputs (tick u) := by
  simp [endCycle, h]

/-- The tick as a number: one less, never below 0 (R27, R100). -/
theorem countDown_toNat (b : Byte) : (countDown b).toNat = b.toNat - 1 := by
  unfold countDown
  split
  · simp [*]
  · rename_i h
    have : b.toNat ≠ 0 := fun hc => h (BitVec.eq_of_toNat_eq (by simpa using hc))
    have hb := b.isLt
    rw [BitVec.toNat_sub]
    simp
    omega

@[simp] theorem endCycle_mem (u : State) : (endCycle u).mem = u.mem := by
  unfold endCycle; split <;> simp

@[simp] theorem endCycle_V (u : State) : (endCycle u).V = u.V := by
  unfold endCycle; split <;> simp

@[simp] theorem endCycle_I (u : State) : (endCycle u).I = u.I := by
  unfold endCycle; split <;> simp

@[simp] theorem endCycle_pc (u : State) : (endCycle u).pc = u.pc := by
  unfold endCycle; split <;> simp

@[simp] theorem endCycle_stack (u : State) : (endCycle u).stack = u.stack := by
  unfold endCycle; split <;> simp

@[simp] theorem endCycle_sp (u : State) : (endCycle u).sp = u.sp := by
  unfold endCycle; split <;> simp

@[simp] theorem endCycle_display (u : State) : (endCycle u).display = u.display := by
  unfold endCycle; split <;> simp

@[simp] theorem endCycle_halted (u : State) : (endCycle u).halted = u.halted := by
  unfold endCycle; split <;> simp

@[simp] theorem endCycle_reported (u : State) : (endCycle u).reported = u.reported := by
  unfold endCycle; split <;> simp

end Sys2Proof.Machine
end

