-- ==== Sys2Proof/Laws/Exec.lean ====
section
/-! SUPPORT. Sys2Proof/Laws/Exec.lean: how an execute phase can end, said once over all instructions (R94), and what raising an error leaves. -/

namespace Sys2Proof.Machine

/-! ### Raising an error -/

/-- Raising an error halts exactly when it is an out-of-range access (R31, R203). -/
theorem raiseError_halted_iff (e : Event) (s : State) :
    (raiseError e s).halted = true ↔ s.halted = true ∨ ∃ space addr, e = .addressOutOfRange space addr := by
  cases e <;> simp [raiseError]

/-- The outputs of a cycle that raised an error, before the tick adds `beep` (R99, R102). -/
theorem raiseError_out (e : Event) (s : State) :
    (raiseError e s).out.event = some e ∧ (raiseError e s).out.drawOccurred = false ∧ (raiseError e s).out.beep = false ∧
    (raiseError e s).out.status ≠ .waiting ∧
    ((raiseError e s).out.status = .halted ↔ ∃ space addr, e = .addressOutOfRange space addr) := by
  cases e <;> simp [raiseError]

/-! ### The two instructions that use the stack -/

/-- `00EE` returns or reports (R111). -/
theorem exec_ret_cases {s t : State} (h : exec .ret s = .next t) :
    (0 < s.sp.val ∧
      t = latch { s with sp := ⟨s.sp.val - 1, by omega⟩, pc := s.stack[s.sp.val - 1] } .completed none false) ∨
    t = raiseError (.stackUnderflow s.pc) s := by
  simp only [exec, execRet, pop] at h
  split at h <;> rename_i h' <;> (split at h' <;> cases h') <;> cases h
  · exact .inr rfl
  · exact .inl ⟨by omega, rfl⟩

/-- `2NNN` calls or reports (R113). -/
theorem exec_call_cases {s t : State} {nnn : Addr12} (h : exec (.call nnn) s = .next t) :
    (∃ hs : s.sp.val < 16,
      t = latch { s with stack := s.stack.set s.sp.val (s.pc + 2) hs, sp := ⟨s.sp.val + 1, by omega⟩, pc := addrOf nnn } .completed none false) ∨
    t = raiseError (.stackOverflow s.pc) s := by
  simp only [exec, execCall, push] at h
  split at h <;> rename_i h' <;> (split at h' <;> cases h') <;> cases h
  · exact .inr rfl
  · exact .inl ⟨by assumption, rfl⟩

/-! ### The four ways of R94 -/

/-- The two instructions that assert `draw_occurred` (R97). -/
abbrev IsDisplay (i : Instr) : Prop := i = .cls ∨ ∃ x y n, i = .drw x y n

/-- `FX0A` with no key pressed (R183). -/
abbrev Waits (i : Instr) (s : State) : Prop := ∃ x, i = .ldVxK x ∧ s.port.keys = 0

/-- R94: normal, waiting, or an error. -/
def Ends (i : Instr) (s t : State) : Prop :=
  (∃ d, (d = true ↔ IsDisplay i) ∧ t.out = { quietOutputs with drawOccurred := d } ∧ t.halted = s.halted ∧
    t.reported = s.reported ∧ ¬ Waits i s) ∨
  (Waits i s ∧ t = latch s .waiting none false) ∨
  ((∀ x, i ≠ .ldVxK x) ∧ ∃ e, t = raiseError e s)

theorem Ends.of_normal {i : Instr} {s t u : State} (h : normal u = .next t) (hd : ¬ IsDisplay i) (hk : ∀ x, i ≠ .ldVxK x)
    (h1 : u.halted = s.halted) (h2 : u.reported = s.reported) : Ends i s t := by
  cases h
  exact .inl ⟨false, by simp [hd], rfl, h1, h2, fun ⟨x, hx, _⟩ => hk x hx⟩

theorem Ends.of_normalDraw {i : Instr} {s t u : State} (h : normalDraw u = .next t) (hd : IsDisplay i) (hk : ∀ x, i ≠ .ldVxK x)
    (h1 : u.halted = s.halted) (h2 : u.reported = s.reported) : Ends i s t := by
  cases h
  exact .inl ⟨true, by simp [hd], rfl, h1, h2, fun ⟨x, hx, _⟩ => hk x hx⟩

theorem Ends.of_raised {i : Instr} {s t : State} {e : Event} (h : raised e s = .next t) (hk : ∀ x, i ≠ .ldVxK x) :
    Ends i s t := by
  cases h
  exact .inr (.inr ⟨hk, e, rfl⟩)

/-- An instruction that accesses data ends as `done` does, or with the error of R53. -/
theorem Ends.of_dataAccess {i : Instr} {s t : State} {k : Nat} {done : Result} (h : dataAccess s k done = .next t)
    (hk : ∀ x, i ≠ .ldVxK x) (hdone : done = .next t → Ends i s t) : Ends i s t := by
  rcases dataAccess_cases s k done with h' | ⟨a, h'⟩ <;> rw [h'] at h
  · exact hdone h
  · exact .of_raised h hk

/-- An instruction that reads a key ends as `done` does, or with the error of R187. -/
theorem Ends.of_keyAccess {i : Instr} {s t : State} {x : Reg} {done : Result} (h : keyAccess s x done = .next t)
    (hk : ∀ x, i ≠ .ldVxK x) (hdone : done = .next t → Ends i s t) : Ends i s t := by
  rcases keyAccess_cases s x done with h' | ⟨a, h'⟩ <;> rw [h'] at h
  · exact hdone h
  · exact .of_raised h hk

/-- Every instruction's execute phase ends in one of the ways of R94. -/
theorem exec_ends {i : Instr} {s t : State} (h : exec i s = .next t) : Ends i s t := by
  cases i
  case cls => exact .of_normalDraw h (.inl rfl) (by simp) rfl rfl
  case drw x y n =>
    exact .of_dataAccess h (by simp) fun h => .of_normalDraw h (.inr ⟨_, _, _, rfl⟩) (by simp) rfl rfl
  case ret =>
    rcases exec_ret_cases h with ⟨-, rfl⟩ | rfl
    · exact .of_normal rfl (by simp) (by simp) rfl rfl
    · exact .of_raised rfl (by simp)
  case call =>
    rcases exec_call_cases h with ⟨hs, rfl⟩ | rfl
    · exact .of_normal rfl (by simp) (by simp) rfl rfl
    · exact .of_raised rfl (by simp)
  case ldVxK x =>
    simp only [exec, execLdVxK] at h
    split at h <;> rename_i h'
    · exact .inr (.inl ⟨⟨x, rfl, (leastKey_none_iff _).1 h'⟩, by cases h; rfl⟩)
    · cases h
      refine .inl ⟨false, by simp, rfl, rfl, rfl, fun ⟨_, _, hk⟩ => ?_⟩
      rw [(leastKey_none_iff _).2 hk] at h'
      cases h'
  case skp x => exact .of_keyAccess h (by simp) fun h => .of_normal h (by simp) (by simp) rfl rfl
  case sknp x => exact .of_keyAccess h (by simp) fun h => .of_normal h (by simp) (by simp) rfl rfl
  case ldB x => exact .of_dataAccess h (by simp) fun h => .of_normal h (by simp) (by simp) rfl rfl
  case storeRegs x => exact .of_dataAccess h (by simp) fun h => .of_normal h (by simp) (by simp) rfl rfl
  case loadRegs x => exact .of_dataAccess h (by simp) fun h => .of_normal h (by simp) (by simp) rfl rfl
  all_goals exact .of_normal h (by simp) (by simp) rfl rfl

/-! ### The outputs and the host's turn after an execute phase -/

/-- The tick changes no output but `beep`, and the host's turn none. -/
theorem endCycle_out (u : State) :
    (endCycle u).out.event = u.out.event ∧ (endCycle u).out.status = u.out.status ∧
    (endCycle u).out.drawOccurred = u.out.drawOccurred := by
  unfold endCycle
  split <;> simp [tick]

end Sys2Proof.Machine
end

