-- ==== Sys2Proof/Laws/PerInstr.lean ====
section
/-! SUPPORT. Sys2Proof/Laws/PerInstr.lean: the family of statements made per instruction: the word of an instruction lies on its row of R75. -/

namespace Sys2Proof.Laws.EncodingRow

open Sys2Proof

/-- R75, R84: the encoded word meets the mask and match of the row the instruction stands for, whatever its operands. -/
def Statement (i : Instr) : Prop := encode i &&& (rowOf i).mask = (rowOf i).pattern

/-! ### Once per format (R72) -/

theorem formatA (k : Nat) {p : Word} (hp : p.toNat = k * 4096) (nnn : Addr12) : encodeA p nnn &&& 0xF000#16 = p := by
  have := nnn.isLt
  rw [mask_F000_iff, encodeA_toNat k hp]
  omega

theorem formatI (k : Nat) {p : Word} (hk : k < 16) (hp : p.toNat = k * 4096) (x : Reg) (nn : Byte) :
    encodeI p x nn &&& 0xF000#16 = p := by
  have := nn.isLt
  rw [mask_F000_iff, encodeI_toNat k hk hp]
  omega

theorem formatD (k : Nat) {p : Word} (hk : k < 16) (hp : p.toNat = k * 4096) (x y : Reg) (n : Height) :
    encodeD p x y n &&& 0xF000#16 = p := by
  rw [mask_F000_iff, encodeD_toNat k hk hp]
  omega

theorem formatR (k l : Nat) {p : Word} (hk : k < 16) (hl : l < 16) (hp : p = BitVec.ofNat 16 (k * 4096 + l)) (x y : Reg) :
    encodeR p x y &&& 0xF00F#16 = p := by
  have hv : p.toNat = k * 4096 + l := by rw [hp, BitVec.toNat_ofNat, Nat.mod_eq_of_lt (by omega)]
  rw [mask_F00F_iff, encodeR_toNat k l hk hl hp, hv]
  omega

theorem formatX (k l : Nat) {p : Word} (hk : k < 16) (hl : l < 256) (hp : p.toNat = k * 4096 + l) (x : Reg) :
    encodeX p x &&& 0xF0FF#16 = p := by
  rw [mask_F0FF_iff, encodeX_toNat k l hk hl hp]
  omega

/-! ### Once per instruction -/

theorem cls : Statement (.cls) := by unfold Statement; decide
theorem ret : Statement (.ret) := by unfold Statement; decide
theorem jp (nnn : Addr12) : Statement (.jp nnn) := formatA 1 rfl nnn
theorem call (nnn : Addr12) : Statement (.call nnn) := formatA 2 rfl nnn
theorem seImm (x : Reg) (nn : Byte) : Statement (.seImm x nn) := formatI 3 (by decide) rfl x nn
theorem sneImm (x : Reg) (nn : Byte) : Statement (.sneImm x nn) := formatI 4 (by decide) rfl x nn
theorem seReg (x y : Reg) : Statement (.seReg x y) := formatR 5 0 (by decide) (by decide) rfl x y
theorem ldImm (x : Reg) (nn : Byte) : Statement (.ldImm x nn) := formatI 6 (by decide) rfl x nn
theorem addImm (x : Reg) (nn : Byte) : Statement (.addImm x nn) := formatI 7 (by decide) rfl x nn
theorem ldReg (x y : Reg) : Statement (.ldReg x y) := formatR 8 0 (by decide) (by decide) rfl x y
theorem orReg (x y : Reg) : Statement (.orReg x y) := formatR 8 1 (by decide) (by decide) rfl x y
theorem andReg (x y : Reg) : Statement (.andReg x y) := formatR 8 2 (by decide) (by decide) rfl x y
theorem xorReg (x y : Reg) : Statement (.xorReg x y) := formatR 8 3 (by decide) (by decide) rfl x y
theorem addReg (x y : Reg) : Statement (.addReg x y) := formatR 8 4 (by decide) (by decide) rfl x y
theorem subReg (x y : Reg) : Statement (.subReg x y) := formatR 8 5 (by decide) (by decide) rfl x y
theorem shr (x y : Reg) : Statement (.shr x y) := formatR 8 6 (by decide) (by decide) rfl x y
theorem subnReg (x y : Reg) : Statement (.subnReg x y) := formatR 8 7 (by decide) (by decide) rfl x y
theorem shl (x y : Reg) : Statement (.shl x y) := formatR 8 14 (by decide) (by decide) rfl x y
theorem sneReg (x y : Reg) : Statement (.sneReg x y) := formatR 9 0 (by decide) (by decide) rfl x y
theorem ldI (nnn : Addr12) : Statement (.ldI nnn) := formatA 10 rfl nnn
theorem jpV0 (nnn : Addr12) : Statement (.jpV0 nnn) := formatA 11 rfl nnn
theorem rnd (x : Reg) (nn : Byte) : Statement (.rnd x nn) := formatI 12 (by decide) rfl x nn
theorem drw (x y : Reg) (n : Height) : Statement (.drw x y n) := formatD 13 (by decide) rfl x y n
theorem skp (x : Reg) : Statement (.skp x) := formatX 14 0x9E (by decide) (by decide) rfl x
theorem sknp (x : Reg) : Statement (.sknp x) := formatX 14 0xA1 (by decide) (by decide) rfl x
theorem ldVxDT (x : Reg) : Statement (.ldVxDT x) := formatX 15 0x07 (by decide) (by decide) rfl x
theorem ldVxK (x : Reg) : Statement (.ldVxK x) := formatX 15 0x0A (by decide) (by decide) rfl x
theorem ldDTVx (x : Reg) : Statement (.ldDTVx x) := formatX 15 0x15 (by decide) (by decide) rfl x
theorem ldSTVx (x : Reg) : Statement (.ldSTVx x) := formatX 15 0x18 (by decide) (by decide) rfl x
theorem addI (x : Reg) : Statement (.addI x) := formatX 15 0x1E (by decide) (by decide) rfl x
theorem ldF (x : Reg) : Statement (.ldF x) := formatX 15 0x29 (by decide) (by decide) rfl x
theorem ldB (x : Reg) : Statement (.ldB x) := formatX 15 0x33 (by decide) (by decide) rfl x
theorem storeRegs (x : Reg) : Statement (.storeRegs x) := formatX 15 0x55 (by decide) (by decide) rfl x
theorem loadRegs (x : Reg) : Statement (.loadRegs x) := formatX 15 0x65 (by decide) (by decide) rfl x

end Sys2Proof.Laws.EncodingRow
end

