-- ==== Sys2Proof/Machine/Assembler.lean ====
section
/-! DEFINITION. Sys2Proof/Machine/Assembler.lean: the assembler of R82 and R83, which has no force on the hardware (R81, D23): mnemonics, directives, labels, and the image they make. -/

namespace Sys2Proof.Machine

/-- The `assembler` column of R75. -/
def assemblerSyntax (i : Instr) : String :=
  match i with
  | .cls         => "CLS"
  | .ret         => "RET"
  | .jp _        => "JP nnn"
  | .call _      => "CALL nnn"
  | .seImm _ _   => "SE Vx, nn"
  | .sneImm _ _  => "SNE Vx, nn"
  | .seReg _ _   => "SE Vx, Vy"
  | .ldImm _ _   => "LD Vx, nn"
  | .addImm _ _  => "ADD Vx, nn"
  | .ldReg _ _   => "LD Vx, Vy"
  | .orReg _ _   => "OR Vx, Vy"
  | .andReg _ _  => "AND Vx, Vy"
  | .xorReg _ _  => "XOR Vx, Vy"
  | .addReg _ _  => "ADD Vx, Vy"
  | .subReg _ _  => "SUB Vx, Vy"
  | .shr _ _     => "SHR Vx"
  | .subnReg _ _ => "SUBN Vx, Vy"
  | .shl _ _     => "SHL Vx"
  | .sneReg _ _  => "SNE Vx, Vy"
  | .ldI _       => "LD I, nnn"
  | .jpV0 _      => "JP V0, nnn"
  | .rnd _ _     => "RND Vx, nn"
  | .drw _ _ _   => "DRW Vx, Vy, n"
  | .skp _       => "SKP Vx"
  | .sknp _      => "SKNP Vx"
  | .ldVxDT _    => "LD Vx, DT"
  | .ldVxK _     => "LD Vx, K"
  | .ldDTVx _    => "LD DT, Vx"
  | .ldSTVx _    => "LD ST, Vx"
  | .addI _      => "ADD I, Vx"
  | .ldF _       => "LD F, Vx"
  | .ldB _       => "LD B, Vx"
  | .storeRegs _ => "LD [I], Vx"
  | .loadRegs _  => "LD Vx, [I]"

/-- The instructions whose operand `nnn` may be a label (R82). -/
inductive LabelUse where
  | jp
  | call
  | ldI
  | jpV0
deriving DecidableEq, Repr

/-- One line of assembly, already read: an instruction, one whose `nnn` is a label, a label, or a directive of R83. -/
inductive AsmLine where
  | instr (i : Instr)
  | withLabel (u : LabelUse) (name : String)
  | label (name : String)
  | org (addr : Nat)
  | db (bytes : List Byte)
  | dw (w : Word)
deriving DecidableEq, Repr

/-- The location counter after a line (R82, R83). -/
def AsmLine.next (l : AsmLine) (at_ : Nat) : Nat :=
  match l with
  | .instr _       => at_ + 2
  | .withLabel _ _ => at_ + 2
  | .label _       => at_
  | .org a         => a
  | .db bytes      => at_ + bytes.length
  | .dw _          => at_ + 2

/-- The address a label stands for: that of the next byte (R82). -/
def labelAddr (name : String) (at_ : Nat) (lines : List AsmLine) : Option Nat :=
  match lines with
  | [] => none
  | l :: rest => if l = .label name then some at_ else labelAddr name (l.next at_) rest

/-- The instruction with its label's address as `nnn`. -/
def LabelUse.instr (u : LabelUse) (nnn : Addr12) : Instr :=
  match u with
  | .jp   => .jp nnn
  | .call => .call nnn
  | .ldI  => .ldI nnn
  | .jpV0 => .jpV0 nnn

/-- A word's two bytes at an address, high byte first (R54, R82). -/
def wordCells (a : Nat) (w : Word) : List (Nat × Byte) := [(a, highByte w), (a + 1, lowByte w)]

/-- Bytes at an address and up. -/
def byteCells (a : Nat) (bytes : List Byte) : List (Nat × Byte) :=
  match bytes with
  | [] => []
  | b :: rest => (a, b) :: byteCells (a + 1) rest

/-- The bytes of the lines with their addresses, or none where a label is not defined or does not fit `nnn` (R82). -/
def emitFrom (all : List AsmLine) (at_ : Nat) (lines : List AsmLine) : Option (List (Nat × Byte)) :=
  match lines with
  | [] => some []
  | l :: rest => do
    let cells ← match l with
      | .instr i => some (wordCells at_ (encode i))
      | .withLabel u name =>
        match labelAddr name Config.progBase all with
        | some a => if a < 4096 then some (wordCells at_ (encode (u.instr (BitVec.ofNat 12 a)))) else none
        | none => none
      | .label _  => some []
      | .org _    => some []
      | .db bytes => some (byteCells at_ bytes)
      | .dw w     => some (wordCells at_ w)
    let more ← emitFrom all (l.next at_) rest
    some (cells ++ more)

/-- A program's bytes: the first line stands at 0x200 unless an ORG says otherwise (R82). -/
def emit (lines : List AsmLine) : Option (List (Nat × Byte)) := emitFrom lines Config.progBase lines

end Sys2Proof.Machine
end

