-- ==== Sys2Proof/Tests/Slice0.lean ====
section
/-! SUPPORT. Sys2Proof/Tests/Slice0.lean: the model's own tests. Expected results are the worked vectors of 95_test_vectors.md (named in each docstring) or the examples of the rules; then one witness per statement that has hypotheses. -/

namespace Sys2Proof.Tests

open Sys2Proof Sys2Proof.Machine

/-! ## Helpers -/

/-- The reset state with the word `w` at `pc` (95_test_vectors.md 0). -/
def at0 (w : Nat) : State := State.reset.withFetchWord 16 w

/-- The same with the word at another `pc`. -/
def atPc (pc : Word) (w : Nat) : State := (setPc State.reset pc).withFetchWord 16 w

/-- Registers set by number. -/
def regs (l : List (Reg × Byte)) (s : State) : State := l.foldl (fun s p => writeV s p.1 p.2) s

/-- Keys held in the coming cycle. -/
def keys (k : BitVec 16) (s : State) : State := presentInputs { s.port with keys := k } s

/-- The random byte of the coming cycle. -/
def random (r : Byte) (s : State) : State := presentInputs { s.port with rnd := r } s

/-- `n` occupied stack slots. -/
def depth (n : Fin 17) (s : State) : State := { s with sp := n }

/-- Pixels lit. -/
def lit (l : List Nat) (s : State) : State := { s with display := l.foldl togglePixel s.display }

/-- One step answers a next state with this property. -/
def ran (s : State) (p : State → Bool) : Bool :=
  match step s with
  | .next t => p t
  | .fault _ => false
  | .refused _ => false

/-- Byte `a` of a state's memory. -/
def byteAt (s : State) (a : Nat) : Byte := memRead s.mem a

/-- The cycle was fatal with this event, and `pc` stayed. -/
def fatal (space : Space) (addr : Nat) (pc : Word) (t : State) : Bool :=
  t.halted && t.out.status == .halted && t.out.event == some (.addressOutOfRange space addr) && t.pc == pc

/-! ## WellFormed: each check refuses an operand one past its field (R71, R82) -/

theorem test_wf_Z : RawOperands.wellFormed .Z { x := 99, nnn := 9999 } = true := by decide
theorem test_wf_A : RawOperands.wellFormed .A { nnn := 4095 } = true ∧ RawOperands.wellFormed .A { nnn := 4096 } = false := by decide
theorem test_wf_I_x : RawOperands.wellFormed .I { x := 15, nn := 255 } = true ∧ RawOperands.wellFormed .I { x := 16 } = false := by decide
theorem test_wf_I_nn : RawOperands.wellFormed .I { nn := 256 } = false := by decide
theorem test_wf_R_x : RawOperands.wellFormed .R { x := 15, y := 15 } = true ∧ RawOperands.wellFormed .R { x := 16 } = false := by decide
theorem test_wf_R_y : RawOperands.wellFormed .R { y := 16 } = false := by decide
theorem test_wf_D_x : RawOperands.wellFormed .D { x := 15, y := 15, n := 15 } = true ∧ RawOperands.wellFormed .D { x := 16 } = false := by decide
theorem test_wf_D_y : RawOperands.wellFormed .D { y := 16 } = false := by decide
theorem test_wf_D_n : RawOperands.wellFormed .D { n := 16 } = false := by decide
theorem test_wf_X : RawOperands.wellFormed .X { x := 15 } = true ∧ RawOperands.wellFormed .X { x := 16 } = false := by decide

/-! ## Decoding: words written out bit by bit from R71, R72 and R75 -/

theorem test_decode_Z : decode 0b0000000011100000#16 = .ok .cls ∧ decode 0b0000000011101110#16 = .ok .ret := by decide
theorem test_decode_A : decode 0b0001001011110000#16 = .ok (.jp 0x2F0) ∧ decode 0b0010001100000000#16 = .ok (.call 0x300) ∧
    decode 0b1010001011110000#16 = .ok (.ldI 0x2F0) ∧ decode 0b1011001100000000#16 = .ok (.jpV0 0x300) := by decide
theorem test_decode_I : decode 0b0011001100101010#16 = .ok (.seImm 3 0x2A) ∧ decode 0b0100001100101010#16 = .ok (.sneImm 3 0x2A) ∧
    decode 0b0110101000101100#16 = .ok (.ldImm 10 0x2C) ∧ decode 0b0111001000100000#16 = .ok (.addImm 2 0x20) ∧
    decode 0b1100001100001111#16 = .ok (.rnd 3 0x0F) := by decide
theorem test_decode_R_skip : decode 0b0101000100100000#16 = .ok (.seReg 1 2) ∧ decode 0b1001000100100000#16 = .ok (.sneReg 1 2) := by decide
theorem test_decode_R_logic : decode 0b1000001101110000#16 = .ok (.ldReg 3 7) ∧ decode 0b1000000100100001#16 = .ok (.orReg 1 2) ∧
    decode 0b1000000100100010#16 = .ok (.andReg 1 2) ∧ decode 0b1000000100100011#16 = .ok (.xorReg 1 2) := by decide
theorem test_decode_R_arith : decode 0b1000001101110100#16 = .ok (.addReg 3 7) ∧ decode 0b1000000100100101#16 = .ok (.subReg 1 2) ∧
    decode 0b1000010001010110#16 = .ok (.shr 4 5) ∧ decode 0b1000000100100111#16 = .ok (.subnReg 1 2) ∧
    decode 0b1000010001011110#16 = .ok (.shl 4 5) := by decide
theorem test_decode_D : decode 0b1101011110100101#16 = .ok (.drw 7 10 5) := by decide
theorem test_decode_X_keys : decode 0b1110001010011110#16 = .ok (.skp 2) ∧ decode 0b1110001010100001#16 = .ok (.sknp 2) ∧
    decode 0b1111001100001010#16 = .ok (.ldVxK 3) := by decide
theorem test_decode_X_timers : decode 0b1111001100000111#16 = .ok (.ldVxDT 3) ∧ decode 0b1111001100010101#16 = .ok (.ldDTVx 3) ∧
    decode 0b1111001100011000#16 = .ok (.ldSTVx 3) := by decide
theorem test_decode_X_index : decode 0b1111001100011110#16 = .ok (.addI 3) ∧ decode 0b1111001100101001#16 = .ok (.ldF 3) ∧
    decode 0b1111001100110011#16 = .ok (.ldB 3) ∧ decode 0b1111001101010101#16 = .ok (.storeRegs 3) ∧
    decode 0b1111001101100101#16 = .ok (.loadRegs 3) := by decide

/-- V-E4, V-E5, V-E6, V-E7, V-E9, V-E11: rejected by name, none falls through to a neighbour. -/
theorem test_decode_unrecognized :
    ([0x00E1#16, 0x01E0#16, 0x00FE#16, 0x0000#16, 0x0123#16, 0x5121#16, 0x9121#16, 0x8128#16, 0x8129#16, 0x812A#16, 0x812B#16,
      0x812C#16, 0x812D#16, 0x812F#16, 0xE29F#16, 0xE200#16, 0xF3FF#16, 0xF300#16, 0xF375#16, 0xF385#16, 0xFFFF#16].all
      fun w => decide (decode w = .error (.unrecognized w))) = true := by decide

/-- R54, R70: the first byte in memory is the high byte; what follows is handed back; one byte is no instruction. -/
theorem test_decodeBytes : decodeBytes [0x83, 0x74, 0x12] = .ok (.addReg 3 7, [0x12]) ∧ decodeBytes [0x83] = .error .truncated := by decide
theorem test_decodeTableWord : decodeTableWord 16 0x8374 = some (.addReg 3 7) ∧ decodeTableWord 16 0x5121 = none := by decide

/-- The examples of R84. -/
theorem test_encode : encode (.addReg 3 7) = 0x8374#16 ∧ encode (.drw 1 2 5) = 0xD125#16 ∧ encode (.ldImm 10 0x2C) = 0x6A2C#16 ∧
    encode (.jp 0x2F0) = 0x12F0#16 ∧ encode (.storeRegs 15) = 0xFF55#16 := by decide

/-! ## Control transfer and skips: 95_test_vectors.md 2.1 -/

/-- V-C1. -/
theorem test_ret : ran ({ depth 1 (atPc 0x0300 0x00EE) with stack := State.reset.stack.set 0 0x0204 })
    (fun t => t.pc == 0x0204 && t.sp == 0 && t.stack[0] == 0x0204) = true := by decide
/-- V-C2, V-X3: a reported error ticks and can beep. -/
theorem test_ret_underflow : ran ({ atPc 0x0300 0x00EE with DT := 2, ST := 1 })
    (fun t => t.pc == 0x0302 && t.out == { status := .completed, event := some (.stackUnderflow 0x0300), drawOccurred := false, beep := true }
      && t.DT == 1 && t.ST == 0 && t.sp == 0) = true := by decide
/-- V-C3. -/
theorem test_jp : ran (at0 0x12F0) (fun t => t.pc == 0x02F0 && t.sp == 0) = true := by decide
/-- V-C9: the return address 0x1000 is stored as it is. -/
theorem test_call : ran (atPc 0x0FFE 0x2FFE) (fun t => t.stack[0] == 0x1000 && t.sp == 1 && t.pc == 0x0FFE) = true := by decide
/-- V-C8. -/
theorem test_call_overflow : ran (depth 16 (atPc 0x0240 0x2300))
    (fun t => t.pc == 0x0242 && t.sp == 16 && t.stack == State.reset.stack && t.out.event == some (.stackOverflow 0x0240)) = true := by decide
/-- V-C11. -/
theorem test_jpV0 : ran (regs [(0, 0xFF)] (at0 0xBFFF)) (fun t => t.pc == 0x10FE) = true := by decide
/-- V-C12. -/
theorem test_seImm : ran (regs [(3, 0x2A)] (at0 0x332A)) (fun t => t.pc == 0x0204) = true ∧
    ran (regs [(3, 0x2B)] (at0 0x332A)) (fun t => t.pc == 0x0202) = true := by decide
/-- V-C13. -/
theorem test_sneImm : ran (regs [(3, 0x2A)] (at0 0x432A)) (fun t => t.pc == 0x0202) = true ∧
    ran (at0 0x432A) (fun t => t.pc == 0x0204) = true := by decide
/-- V-C14. -/
theorem test_seReg : ran (regs [(1, 7), (2, 7)] (at0 0x5120)) (fun t => t.pc == 0x0204) = true ∧
    ran (regs [(1, 7), (2, 8)] (at0 0x5120)) (fun t => t.pc == 0x0202) = true := by decide
/-- V-C16. -/
theorem test_sneReg : ran (regs [(1, 7), (2, 8)] (at0 0x9120)) (fun t => t.pc == 0x0204) = true ∧
    ran (regs [(1, 7), (2, 7)] (at0 0x9120)) (fun t => t.pc == 0x0202) = true := by decide

/-! ## Arithmetic and logic: 95_test_vectors.md 2.2 -/

/-- V-A1. -/
theorem test_ldImm : ran (at0 0x6A2C) (fun t => t.V[10] == 0x2C && t.pc == 0x0202) = true := by decide
/-- V-A2: no carry out. -/
theorem test_addImm : ran (regs [(2, 0xF0), (15, 0x55)] (at0 0x7220)) (fun t => t.V[2] == 0x10 && t.V[15] == 0x55) = true := by decide
/-- V-A5. -/
theorem test_ldReg : ran (regs [(7, 0x55)] (at0 0x8370)) (fun t => t.V[3] == 0x55 && t.V[7] == 0x55) = true := by decide
/-- V-A6. -/
theorem test_orReg : ran (regs [(1, 0x0F), (2, 0xF0), (15, 1)] (at0 0x8121)) (fun t => t.V[1] == 0xFF && t.V[15] == 1) = true := by decide
/-- V-A7. -/
theorem test_andReg : ran (regs [(1, 0x3C), (2, 0x0F), (15, 1)] (at0 0x8122)) (fun t => t.V[1] == 0x0C && t.V[15] == 1) = true := by decide
/-- V-A8. -/
theorem test_xorReg : ran (regs [(1, 0xFF), (2, 0x0F), (15, 1)] (at0 0x8123)) (fun t => t.V[1] == 0xF0 && t.V[15] == 1) = true := by decide
/-- V-A10. -/
theorem test_addReg : ran (regs [(1, 0xC8), (2, 0x64)] (at0 0x8124)) (fun t => t.V[1] == 0x2C && t.V[15] == 1) = true := by decide
/-- V-A14, V-A15: the result survives in `V[0xF]`; the old `V[0xF]` is the operand. -/
theorem test_addReg_flag : ran (regs [(15, 0xF0), (1, 0x20)] (at0 0x8F14)) (fun t => t.V[15] == 0x10) = true ∧
    ran (regs [(1, 0xFF), (15, 1)] (at0 0x81F4)) (fun t => t.V[1] == 0 && t.V[15] == 1) = true := by decide
/-- V-A17. -/
theorem test_subReg : ran (regs [(1, 0x10), (2, 0x20)] (at0 0x8125)) (fun t => t.V[1] == 0xF0 && t.V[15] == 0) = true := by decide
/-- V-A16, V-A19: equal operands give 1; with `x = 0xF` the difference survives. -/
theorem test_subReg_equal : ran (regs [(1, 7), (2, 7)] (at0 0x8125)) (fun t => t.V[1] == 0 && t.V[15] == 1) = true ∧
    ran (regs [(15, 3), (1, 5)] (at0 0x8F15)) (fun t => t.V[15] == 0xFE) = true := by decide
/-- V-A22: `V[y]` is neither read nor written. -/
theorem test_shr : ran (regs [(4, 6), (5, 0xFF)] (at0 0x8456)) (fun t => t.V[4] == 3 && t.V[5] == 0xFF && t.V[15] == 0) = true := by decide
/-- V-A24. -/
theorem test_shr_flag : ran (regs [(15, 7)] (at0 0x8F06)) (fun t => t.V[15] == 3) = true := by decide
/-- V-A26. -/
theorem test_subnReg : ran (regs [(1, 5), (2, 2)] (at0 0x8127)) (fun t => t.V[1] == 0xFD && t.V[2] == 2 && t.V[15] == 0) = true := by decide
/-- V-A25. -/
theorem test_subnReg_noBorrow : ran (regs [(1, 2), (2, 5)] (at0 0x8127)) (fun t => t.V[1] == 3 && t.V[15] == 1) = true := by decide
/-- V-A29. -/
theorem test_shl : ran (regs [(4, 0x81)] (at0 0x840E)) (fun t => t.V[4] == 2 && t.V[15] == 1) = true := by decide
/-- V-A31. -/
theorem test_shl_clear : ran (regs [(4, 0x40), (15, 1)] (at0 0x840E)) (fun t => t.V[4] == 0x80 && t.V[15] == 0) = true := by decide
/-- V-A33. -/
theorem test_rnd : ran (random 0xA7 (at0 0xC30F)) (fun t => t.V[3] == 7) = true := by decide

/-! ## Index register and memory: 95_test_vectors.md 2.3 -/

/-- V-M2. -/
theorem test_ldI : ran (setI (at0 0xAFFF) 0xFFFF) (fun t => t.I == 0x0FFF) = true := by decide
/-- V-M4, V-M5. -/
theorem test_addI : ran (regs [(2, 1)] (setI (at0 0xF21E) 0x0FFF)) (fun t => t.I == 0x1000 && t.V[15] == 0) = true ∧
    ran (regs [(2, 0xFF)] (setI (at0 0xF21E) 0xFFFF)) (fun t => t.I == 0x00FE) = true := by decide
/-- V-M7. -/
theorem test_ldF : ran (regs [(5, 0xFF)] (at0 0xF529)) (fun t => t.I == 0x04FB) = true := by decide
/-- V-M11: the last legal address. -/
theorem test_ldB : ran (regs [(3, 0x6D)] (setI (at0 0xF333) 0x0FFD))
    (fun t => byteAt t 0xFFD == 1 && byteAt t 0xFFE == 0 && byteAt t 0xFFF == 9 && t.I == 0x0FFD) = true := by decide
/-- V-M12, V-X9: fatal, nothing written, no tick. -/
theorem test_ldB_fatal : ran ({ regs [(3, 0x6D)] (setI (at0 0xF333) 0x0FFE) with DT := 4, ST := 1 })
    (fun t => fatal .data 0x1000 0x0200 t && byteAt t 0xFFE == 0 && t.DT == 4 && t.ST == 1 && t.out.beep == false) = true := by decide
/-- V-M14. -/
theorem test_storeRegs : ran (regs [(0, 0x11), (1, 0x22), (2, 0x33), (3, 0x44)] (setI (at0 0xF255) 0x0400))
    (fun t => byteAt t 0x400 == 0x11 && byteAt t 0x401 == 0x22 && byteAt t 0x402 == 0x33 && byteAt t 0x403 == 0 && t.I == 0x0400) = true := by decide
/-- V-M17: not even the bytes in range are written. -/
theorem test_storeRegs_fatal : ran (regs [(0, 0xA0)] (setI (at0 0xFF55) 0x0FF1))
    (fun t => fatal .data 0x1000 0x0200 t && byteAt t 0xFF1 == 0) = true := by decide
/-- V-M19. -/
theorem test_loadRegs : ran (regs [(3, 0x99)] (storeBytes (setI (at0 0xF265) 0x0400) 0x400 [0xAA, 0xBB, 0xCC, 0xDD]))
    (fun t => t.V[0] == 0xAA && t.V[1] == 0xBB && t.V[2] == 0xCC && t.V[3] == 0x99 && t.I == 0x0400) = true := by decide
/-- V-M21. -/
theorem test_loadRegs_fatal : ran (regs [(0, 1), (1, 2)] (setI (at0 0xF165) 0x0FFF))
    (fun t => fatal .data 0x1000 0x0200 t && t.V[0] == 1) = true := by decide

/-! ## Display: 95_test_vectors.md 2.4 -/

/-- V-D15. -/
theorem test_cls : ran (regs [(15, 1)] (lit [0, 5, 2047] (at0 0x00E0)))
    (fun t => t.display == State.reset.display && t.V[15] == 1 && t.out.drawOccurred) = true := by decide
/-- V-D3: past the end of the last row, back to index 0. -/
theorem test_drw_wrap : ran (regs [(1, 60), (2, 31)] (storeBytes (setI (at0 0xD121) 0x0300) 0x300 [0xFF]))
    (fun t => t.display == (lit [0, 1, 2, 3, 2044, 2045, 2046, 2047] State.reset).display && t.V[15] == 0 && t.out.drawOccurred) = true := by decide
/-- V-D8: pixel 3 collides, pixel 4 is untouched. -/
theorem test_drw_collision : ran (lit [3, 4] (storeBytes (setI (at0 0xD121) 0x0300) 0x300 [0xF0]))
    (fun t => t.display == (lit [0, 1, 2, 4] State.reset).display && t.V[15] == 1 && t.pc == 0x0202) = true := by decide

/-! ## Keys and timers: 95_test_vectors.md 2.5 -/

/-- V-K1, V-K2. -/
theorem test_skp : ran (regs [(2, 5)] (keys 0x0020 (at0 0xE29E))) (fun t => t.pc == 0x0204) = true ∧
    ran (regs [(2, 5)] (keys 0xFFDF (at0 0xE29E))) (fun t => t.pc == 0x0202) = true := by decide
/-- V-K4. -/
theorem test_skp_fatal : ran (regs [(2, 0x10)] (keys 0xFFFF (at0 0xE29E))) (fatal .key 0x10 0x0200) = true := by decide
/-- V-K5. -/
theorem test_sknp : ran (regs [(2, 5)] (keys 0x0020 (at0 0xE2A1))) (fun t => t.pc == 0x0202) = true ∧
    ran (regs [(2, 5)] (at0 0xE2A1)) (fun t => t.pc == 0x0204) = true := by decide
/-- V-K6. -/
theorem test_sknp_fatal : ran ({ regs [(2, 0xFF)] (at0 0xE2A1) with DT := 5 }) (fun t => fatal .key 0xFF 0x0200 t && t.DT == 5) = true := by decide
/-- V-K7, cycle 1. -/
theorem test_ldVxK_waits : ran ({ at0 0xF30A with DT := 3, ST := 2 })
    (fun t => t.out.status == .waiting && t.pc == 0x0200 && t.DT == 2 && t.ST == 1 && t.V[3] == 0) = true := by decide
/-- V-K7, cycle 4: the least key. -/
theorem test_ldVxK : ran (keys 0x0090 (at0 0xF30A)) (fun t => t.V[3] == 4 && t.pc == 0x0202 && t.out == quietOutputs) = true := by decide
/-- V-T1. -/
theorem test_ldVxDT : ran ({ at0 0xF407 with DT := 0x1E }) (fun t => t.V[4] == 0x1E && t.DT == 0x1D) = true := by decide
/-- V-T3, V-T4. -/
theorem test_ldDTVx : ran (regs [(4, 0x3C)] (at0 0xF415)) (fun t => t.DT == 0x3B) = true ∧
    ran ({ at0 0xF415 with DT := 9 }) (fun t => t.DT == 0) = true := by decide
/-- V-T5, V-T6. -/
theorem test_ldSTVx : ran (regs [(4, 2)] (at0 0xF418)) (fun t => t.ST == 1 && t.out.beep == false) = true ∧
    ran (regs [(4, 1)] (at0 0xF418)) (fun t => t.ST == 0 && t.out.beep) = true := by decide
/-- V-T7: a running sound timer cancelled silently. -/
theorem test_ldSTVx_cancel : ran ({ at0 0xF418 with ST := 1 }) (fun t => t.ST == 0 && t.out.beep == false) = true := by decide

/-! ## The cycle, loading, reset: 95_test_vectors.md 2.6 -/

/-- V-X1: the reset state with nothing placed runs the unrecognized word 0x0000. -/
theorem test_cycle_unknown : ran State.reset (fun t => t.pc == 0x0202 && t.out.event == some (.unknownOpcode 0x0000 0x0200) && t.reported) = true := by decide
/-- V-X6. -/
theorem test_cycle_fetch_fatal : ran ({ setPc State.reset 0x0FFF with DT := 5, ST := 1 })
    (fun t => fatal .fetch 0x0FFF 0x0FFF t && t.DT == 5 && t.ST == 1 && t.out.beep == false) = true := by decide
/-- V-X6, second cycle. -/
theorem test_cycle_halted : ran ({ setPc State.reset 0x0FFF with DT := 5, halted := true })
    (fun t => t.out.status == .halted && t.out.event == none && t.DT == 5 && t.pc == 0x0FFF) = true := by decide
/-- V-X7: no wrap of `pc + 1`. -/
theorem test_cycle_no_wrap : ran (setPc State.reset 0xFFFF) (fatal .fetch 0xFFFF 0xFFFF) = true := by decide
/-- V-X8: an odd `pc` is legal. -/
theorem test_cycle_odd_pc : ran (atPc 0x0201 0x6A01) (fun t => t.V[10] == 1 && t.pc == 0x0203) = true := by decide
/-- R232: byte `i` of the image lands at 0x200 + `i`. -/
theorem test_load : (match loadProgram [0x60, 0x07] State.reset with
    | .next t => byteAt t 0x200 == 0x60 && byteAt t 0x201 == 0x07 && byteAt t 0x202 == 0 && byteAt t 0x1FF == 0
    | .fault _ => false | .refused _ => false) = true := by decide
/-- R34, R236: the next cycle's inputs are the next of the list. -/
theorem test_inputs : ran (planInputs [{ keys := 0x0008, rnd := 0x5A }] (at0 0x6A2C))
    (fun t => t.port == { keys := 0x0008, rnd := 0x5A } && t.upcoming == [] && t.drawn == 0) = true := by decide
/-- R33: glyph 0xA of the default table is at 0x032 and the last glyph ends at 0x04F; R36: 0x050 is 0. -/
theorem test_default_font : (List.range 5).map (fun i => memRead State.reset.mem (0x032 + i)) = [0xF0, 0x90, 0xF0, 0x90, 0x90] ∧
    memRead State.reset.mem 0x04F = 0x80 ∧ memRead State.reset.mem 0x050 = 0 := by decide
/-- R33, R230: reset installs the font it is given, over whatever memory held. -/
theorem test_other_font : (hostReset (Vector.replicate 80 0xA5) (at0 0x1234)).mem = (List.range 80).map (fun a => (a, 0xA5)) ∧
    (hostReset (Vector.replicate 80 0) (at0 0x1234)).mem = [] := by decide
/-- R52: writing what an unlisted address reads as removes the entry, so equal memories are equal data. -/
theorem test_memory_canonical : memWrite (memWrite (memWrite [] 0x300 5) 0x200 7) 0x300 0 = [(0x200, 7)] ∧
    Memory.wf (memWrite (memWrite [] 0x300 5) 0x200 7) = true ∧ Memory.wf [(0x300, 5), (0x200, 7)] = false ∧
    Memory.wf [(0x200, 0)] = false ∧ Memory.wf [(0x1000, 1)] = false := by decide

/-- The image of program P1 of 95_test_vectors.md 3, with its labels. -/
theorem test_assembler : (emit [.instr (.ldImm 0 0), .instr (.ldImm 1 10), .label "loop", .withLabel .call "add", .instr (.addImm 1 0xFF),
      .instr (.seImm 1 0), .withLabel .jp "loop", .label "done", .withLabel .jp "done", .label "add", .instr (.addReg 0 1), .instr .ret]).map
      (fun cells => cells.map (·.2)) =
    some [0x60, 0x00, 0x61, 0x0A, 0x22, 0x0E, 0x71, 0xFF, 0x31, 0x00, 0x12, 0x04, 0x12, 0x0C, 0x80, 0x14, 0x00, 0xEE] := by decide
/-- R83: ORG, DB, DW; an undefined label is refused. -/
theorem test_directives : emit [.org 0x300, .db [0xF0, 0x90], .dw 0x5FFF] = some [(0x300, 0xF0), (0x301, 0x90), (0x302, 0x5F), (0x303, 0xFF)] ∧
    emit [.withLabel .jp "nowhere"] = none := by decide

/-! ## Witnesses: for every statement with hypotheses, a concrete state and operands that meet all of them together, clause by clause, at the boundaries -/

theorem witness_DecodeSelectsExactlyTheTableRow :
    rowOf (.addReg 3 7) ∈ opcodeTable ∧ 0x8374#16 &&& (rowOf (.addReg 3 7)).mask = (rowOf (.addReg 3 7)).pattern ∧
    decode 0x8374#16 = .ok (.addReg 3 7) := by decide
theorem witness_RecognizedKeysOfEachFamily :
    rowOf (.ldImm 0 0) ∈ opcodeTable ∧ 0x6A2C#16 &&& (rowOf (.ldImm 0 0)).mask = (rowOf (.ldImm 0 0)).pattern := by decide
theorem witness_EncodeOfDecodedIsTheWord : decode 0xFF65#16 = .ok (.loadRegs 15) := by decide
/-- One row of each format, with operands at their upper bounds; one operand past its bound. -/
theorem witness_AssembledOperandsDecodeToTheRow :
    (rowOf (.drw 0 0 0) ∈ opcodeTable ∧ RawOperands.wellFormed (rowOf (.drw 0 0 0)).format { x := 15, y := 15, n := 16 } = false) ∧
    ((rowOf (.drw 0 0 0)).format = .D ∧ RawOperands.wellFormed .D { x := 15, y := 15, n := 15 } = true) ∧
    (rowOf (.jp 0) ∈ opcodeTable ∧ (rowOf (.jp 0)).format = .A ∧ RawOperands.wellFormed .A { nnn := 4095 } = true) ∧
    (rowOf (.ldImm 0 0) ∈ opcodeTable ∧ (rowOf (.ldImm 0 0)).format = .I ∧ RawOperands.wellFormed .I { x := 15, nn := 255 } = true) ∧
    (rowOf (.addReg 0 0) ∈ opcodeTable ∧ (rowOf (.addReg 0 0)).format = .R ∧ RawOperands.wellFormed .R { x := 15, y := 0 } = true) ∧
    (rowOf (.skp 0) ∈ opcodeTable ∧ (rowOf (.skp 0)).format = .X ∧ RawOperands.wellFormed .X { x := 15 } = true) ∧
    (rowOf .cls ∈ opcodeTable ∧ (rowOf .cls).format = .Z ∧ RawOperands.wellFormed .Z {} = true) := by decide
/-- R84: `DRW V1, V2, 5` and `ADD V3, V7` assemble to the words the rule writes out, operands in their fields. -/
theorem test_assemble : assemble (rowOf (.drw 0 0 0)) { x := 1, y := 2, n := 5 } = some 0xD125#16 ∧
    assemble (rowOf (.addReg 0 0)) { x := 3, y := 7 } = some 0x8374#16 := by decide

/-- The encoding clause of every statement about one instruction: a word on its row. -/
theorem witness_encoding_clauses :
    0x00EE#16 &&& 0xFFFF#16 = 0x00EE#16 ∧ 0x12F0#16 &&& 0xF000#16 = 0x1000#16 ∧ 0x2300#16 &&& 0xF000#16 = 0x2000#16 ∧
    0xB300#16 &&& 0xF000#16 = 0xB000#16 ∧ 0x332A#16 &&& 0xF000#16 = 0x3000#16 ∧ 0x432A#16 &&& 0xF000#16 = 0x4000#16 ∧
    0x5120#16 &&& 0xF00F#16 = 0x5000#16 ∧ 0x9120#16 &&& 0xF00F#16 = 0x9000#16 ∧ 0x6A2C#16 &&& 0xF000#16 = 0x6000#16 ∧
    0x7220#16 &&& 0xF000#16 = 0x7000#16 ∧ 0x8370#16 &&& 0xF00F#16 = 0x8000#16 ∧ 0x8121#16 &&& 0xF00F#16 = 0x8001#16 ∧
    0x8122#16 &&& 0xF00F#16 = 0x8002#16 ∧ 0x8123#16 &&& 0xF00F#16 = 0x8003#16 ∧ 0x8124#16 &&& 0xF00F#16 = 0x8004#16 ∧
    0x8125#16 &&& 0xF00F#16 = 0x8005#16 ∧ 0x8456#16 &&& 0xF00F#16 = 0x8006#16 ∧ 0x8127#16 &&& 0xF00F#16 = 0x8007#16 ∧
    0x845E#16 &&& 0xF00F#16 = 0x800E#16 ∧ 0xC30F#16 &&& 0xF000#16 = 0xC000#16 ∧ 0xA2F0#16 &&& 0xF000#16 = 0xA000#16 ∧
    0xF21E#16 &&& 0xF0FF#16 = 0xF01E#16 ∧ 0xF529#16 &&& 0xF0FF#16 = 0xF029#16 ∧ 0xF333#16 &&& 0xF0FF#16 = 0xF033#16 ∧
    0xF255#16 &&& 0xF0FF#16 = 0xF055#16 ∧ 0xF265#16 &&& 0xF0FF#16 = 0xF065#16 ∧ 0x00E0#16 &&& 0xFFFF#16 = 0x00E0#16 ∧
    0xD125#16 &&& 0xF000#16 = 0xD000#16 ∧ 0xE29E#16 &&& 0xF0FF#16 = 0xE09E#16 ∧ 0xE2A1#16 &&& 0xF0FF#16 = 0xE0A1#16 ∧
    0xF30A#16 &&& 0xF0FF#16 = 0xF00A#16 ∧ 0xF407#16 &&& 0xF0FF#16 = 0xF007#16 ∧ 0xF415#16 &&& 0xF0FF#16 = 0xF015#16 ∧
    0xF418#16 &&& 0xF0FF#16 = 0xF018#16 := by decide

theorem witness_ReturnPopsTheStack :
    0 < (depth 1 State.reset).sp.val ∧ 0 < (depth 16 State.reset).sp.val ∧ State.reset.sp.val = 0 := by decide
theorem witness_CallPushesReturnAddress :
    State.reset.sp.val < 16 ∧ (depth 15 State.reset).sp.val < 16 ∧ (depth 16 State.reset).sp.val = 16 := by decide
theorem witness_CallThenReturnComesBack :
    (depth 15 State.reset).sp.val < 16 ∧
    ∃ t u : State, exec (.call 0x300) (depth 15 State.reset) = .next t ∧ u = setPc t 0x300 ∧ u.stack = t.stack ∧ u.sp = t.sp :=
  ⟨by decide, _, _, rfl, rfl, rfl, rfl⟩
/-- Both cases of each skip: the registers of the reset state are equal and 0. -/
theorem witness_SkipOnImmediate : State.reset.V[3] = 0x00 ∧ State.reset.V[3] ≠ 0x2A := by decide
theorem witness_SkipOnRegisters :
    State.reset.V[1] = State.reset.V[2] ∧ (regs [(1, 7)] State.reset).V[1] ≠ (regs [(1, 7)] State.reset).V[2] ∧
    (0x5FFF#16 &&& 0xF000#16 = 0x5000#16 ∧ 0x5FFF#16 &&& 0x000F#16 ≠ 0) ∧ (0x9121#16 &&& 0xF000#16 = 0x9000#16 ∧ 0x9121#16 &&& 0x000F#16 ≠ 0) := by decide
/-- `j ≠ x`, `j ≠ 15`, `x ≠ 15`: the hypotheses of every frame clause over registers. -/
theorem witness_register_frames : (3 : Reg) ≠ 15 ∧ (4 : Reg) ≠ 3 ∧ (4 : Reg) ≠ 15 := by decide
theorem witness_StoreBcdDigits :
    Memory.wf State.reset.mem = true ∧ (setI State.reset 0x0FFD).I.toNat + 2 ≤ 4095 ∧ (effAddr (setI State.reset 0x0FFD) 0 = 0xFFD) ∧
    (setI State.reset 0x0FFE).I.toNat + 2 > 4095 := by decide
theorem witness_StoreRegisterBlock :
    Memory.wf State.reset.mem = true ∧ (setI State.reset 0x0FF0).I.toNat + (15 : Reg).val ≤ 4095 ∧ (3 : Reg) ≤ 15 ∧
    effAddr (setI State.reset 0x0FF0) 0 = 0xFF0 ∧ (setI State.reset 0x0FF1).I.toNat + (15 : Reg).val > 4095 := by decide
theorem witness_LoadRegisterBlock :
    (setI State.reset 0x0FFF).I.toNat + (0 : Reg).val ≤ 4095 ∧ (setI State.reset 0x0FFF).I.toNat + (1 : Reg).val > 4095 := by decide
/-- No row at any `I`, the last legal span, the first illegal one. -/
theorem witness_DrawXorsTheSprite :
    (0 : Height).val = 0 ∧ (setI State.reset 0x0FF1).I.toNat + (15 : Height).val - 1 ≤ 4095 ∧
    ((15 : Height).val > 0 ∧ (setI State.reset 0x0FF2).I.toNat + (15 : Height).val - 1 > 4095) := by decide
/-- A sprite bit that hits a lit pixel, and one that hits an unlit one. -/
theorem witness_DrawXorsTheSprite_hits :
    Hits (lit [0] (storeBytes (setI State.reset 0x0300) 0x300 [0x80])) 1 2 1 0 ∧
    pixel (lit [0] (storeBytes (setI State.reset 0x0300) 0x300 [0x80])) 0 = true ∧
    pixel (storeBytes (setI State.reset 0x0300) 0x300 [0x80]) 0 = false :=
  ⟨⟨0, 0, by decide, by decide, by decide, by decide⟩, by decide, by decide⟩
theorem witness_DrawingTwiceRestoresTheDisplay :
    (setI State.reset 0x0FF1).I.toNat + (15 : Height).val - 1 ≤ 4095 ∧
    ∃ t u : State, exec (.drw 1 2 15) (setI State.reset 0x0FF1) = .next t ∧ u.display = t.display ∧
      u.mem = (setI State.reset 0x0FF1).mem ∧ u.I = (setI State.reset 0x0FF1).I ∧
      u.V[1] = (setI State.reset 0x0FF1).V[1] ∧ u.V[2] = (setI State.reset 0x0FF1).V[2] :=
  have h : ∀ r s : State, ∃ u : State, u.display = r.display ∧ u.mem = s.mem ∧ u.I = s.I ∧ u.V[1] = s.V[1] ∧ u.V[2] = s.V[2] :=
    fun r s => ⟨{ s with display := r.display }, rfl, rfl, rfl, rfl, rfl⟩
  ⟨by decide, _, (h _ _).choose, rfl, (h _ _).choose_spec⟩
theorem witness_KeySkips :
    (regs [(2, 15)] State.reset).V[2].toNat ≤ 15 ∧ (regs [(2, 16)] State.reset).V[2].toNat > 15 := by decide
theorem witness_WaitForKeyTakesLeastKey :
    State.reset.port.keys = 0 ∧ (keys 0x0090 State.reset).port.keys ≠ 0 ∧
    (keys 0x0090 State.reset).port.keys.getLsbD 4 = true ∧ (∀ i, i < 4 → (keys 0x0090 State.reset).port.keys.getLsbD i = false) := by decide
theorem witness_ReadDelayTimerBeforeTick : State.reset.halted = false := by decide
theorem witness_SetDelayTimer : State.reset.halted = false := by decide
theorem witness_SetSoundTimer : State.reset.halted = false ∧ (regs [(4, 1)] State.reset).V[4] = 1 := by decide

/-- An execute phase that goes on and one that is fatal. -/
theorem witness_StepRunsTheDecodedInstruction :
    (at0 0x6A2C).halted = false ∧ (at0 0x6A2C).pc.toNat ≤ 4094 ∧
    decode (wordOfBytes (memRead (at0 0x6A2C).mem 0x200) (memRead (at0 0x6A2C).mem 0x201)) = .ok (.ldImm 10 0x2C) ∧
    (∃ u, exec (.ldImm 10 0x2C) (at0 0x6A2C) = .next u ∧ u.halted = false) ∧
    decode (wordOfBytes (memRead (at0 0xF333).mem 0x200) (memRead (at0 0xF333).mem 0x201)) = .ok (.ldB 3) ∧
    (∃ u, exec (.ldB 3) (setI (at0 0xF333) 0x0FFE) = .next u ∧ u.halted = true) :=
  ⟨by decide, by decide, by decide, ⟨_, rfl, by decide⟩, by decide, ⟨_, rfl, by decide⟩⟩
theorem witness_FetchIsBigEndianAndBounded :
    (setPc State.reset 0x0FFE).pc.toNat ≤ 4094 ∧ (setPc State.reset 0x0FFF).pc.toNat ≥ 4095 ∧ (setPc State.reset 0x0FFF).halted = false := by decide
theorem witness_UnknownOpcodeIsReported :
    State.reset.halted = false ∧ fetch State.reset = .ok 0x0000#16 ∧ (∀ r, r ∈ opcodeTable → 0x0000#16 &&& r.mask ≠ r.pattern) :=
  ⟨rfl, rfl, by decide⟩
theorem witness_FatalAndHaltedCyclesCommitNothing :
    (setPc State.reset 0x0FFF).halted = false ∧ (∃ t, step (setPc State.reset 0x0FFF) = .next t ∧ t.halted = true) ∧
    ({ State.reset with halted := true } : State).halted = true := ⟨rfl, ⟨_, rfl, rfl⟩, rfl⟩
/-- Both kinds of ticking cycle, and one that ends halted. -/
theorem witness_TimersTickOncePerCycle :
    (fetch (at0 0x6A2C) = .ok 0x6A2C#16 ∧ decode 0x6A2C#16 = .ok (.ldImm 10 0x2C) ∧
      ∃ u, exec (.ldImm 10 0x2C) (at0 0x6A2C) = .next u ∧ u.halted = false) ∧
    (fetch State.reset = .ok 0x0000#16 ∧ decode 0x0000#16 = .error (.unrecognized 0x0000#16) ∧ (unknownCycle 0x0000#16 State.reset).halted = false) ∧
    (∃ t, step (setPc State.reset 0x0FFF) = .next t ∧ t.halted = true) :=
  ⟨⟨rfl, by decide, _, rfl, by decide⟩, ⟨rfl, by decide, by decide⟩, _, rfl, rfl⟩
/-- The hypothesis of StatusTellsHowTheCycleEnded, DrawOccurredOnlyOnDisplayInstructions and ReportedMarkIsSticky: one waiting, one drawing cycle. -/
theorem witness_outputs_of_a_cycle :
    (∃ t, step (at0 0xF30A) = .next t ∧ t.out.status = .waiting) ∧ (∃ t, step (at0 0x00E0) = .next t ∧ t.out.drawOccurred = true) ∧
    (∃ t, step State.reset = .next t ∧ t.out.event ≠ none) := ⟨⟨_, rfl, rfl⟩, ⟨_, rfl, rfl⟩, _, rfl, by decide⟩
theorem witness_OnlyAddressOutOfRangeHalts :
    (State.reset.halted = false ∧ ∃ t, step State.reset = .next t) ∧ (∃ t, step { State.reset with halted := true } = .next t) ∧
    (∃ t, loadProgram [0x12, 0x00] State.reset = .next t) := ⟨⟨rfl, _, rfl⟩, ⟨_, rfl⟩, _, rfl⟩
/-- The last pixel, the last font byte, the first and the last byte above the font. -/
theorem witness_ResetStateIsTheSpecs : 2047 < 2048 ∧ 79 < 80 ∧ (0x050 ≤ 0x050 ∧ 0x050 ≤ 0xFFF) ∧ 0x050 ≤ 0xFFF := by decide
theorem witness_LoadProgramCopiesTheImage :
    (List.replicate 3585 (0xAB : Byte)).length > 3584 ∧ Memory.wf State.reset.mem = true ∧
    (List.replicate 3584 (0xAB : Byte)).length ≤ 3584 ∧ ([] : List Byte).length ≤ 3584 :=
  ⟨by rw [List.length_replicate]; decide, rfl, by rw [List.length_replicate], by decide⟩
theorem witness_ReadAfterWrite : Memory.wf [(0x0FFF, 1)] = true ∧ 0x0FFF ≤ 4095 := by decide
theorem witness_StepKeepsMemoryCanonical :
    Memory.wf (at0 0xF333).mem = true ∧ (∃ t, step (at0 0xF333) = .next t) ∧ ∃ t, loadProgram [0x12, 0x00] (at0 0xF333) = .next t :=
  ⟨by decide, ⟨_, rfl⟩, _, rfl⟩
/-- At the upper bounds of both clauses of BoundedTargets. -/
theorem witness_StepKeepsTargetsBounded :
    BoundedTargets { setPc State.reset 0x10FE with stack := Vector.replicate 16 0x1000 } ∧
    ∃ t, step { setPc State.reset 0x10FE with stack := Vector.replicate 16 0x1000 } = .next t :=
  ⟨⟨by decide, by decide⟩, _, rfl⟩
theorem witness_AccessMatrixOfWrites : ∃ t, exec (.addReg 3 7) State.reset = .next t := ⟨_, rfl⟩
theorem witness_InputsAreReadOnlyByTheirInstructions :
    (∃ t, exec .cls State.reset = .next t) ∧ (∀ x nn, Instr.cls ≠ .rnd x nn) ∧
    ((∀ x, Instr.cls ≠ .skp x) ∧ (∀ x, Instr.cls ≠ .sknp x) ∧ ∀ x, Instr.cls ≠ .ldVxK x) ∧ (∀ x, Instr.cls ≠ .ldSTVx x) ∧
    (∃ t, exec (.ldSTVx 3) State.reset = .next t) ∧ ∃ x, Instr.ldSTVx 3 = .ldSTVx x :=
  ⟨⟨_, rfl⟩, nofun, ⟨nofun, nofun, nofun⟩, nofun, ⟨_, rfl⟩, 3, rfl⟩
theorem witness_ParkedMachineStaysParked :
    Parked { at0 0x1200 with DT := 2, ST := 1 } ∧ Parked (at0 0x1200) ∧ (at0 0x1200).DT = 0 ∧ (at0 0x1200).ST = 0 :=
  ⟨⟨rfl, 0x200, by decide, rfl⟩, ⟨rfl, 0x200, by decide, rfl⟩, rfl, rfl⟩
theorem witness_StoresAreSeenByTheNextFetch :
    Memory.wf (setI (at0 0xF155) 0x0202).mem = true ∧ (setI (at0 0xF155) 0x0202).pc.toNat ≤ 4092 ∧ 1 ≤ (1 : Reg).val ∧
    (setI (at0 0xF155) 0x0202).I.toNat = (setI (at0 0xF155) 0x0202).pc.toNat + 2 ∧ (setI (at0 0xF155) 0x0202).I.toNat + (1 : Reg).val ≤ 4095 ∧
    ∃ t, exec (.storeRegs 1) (setI (at0 0xF155) 0x0202) = .next t :=
  ⟨by decide, by decide, by decide, by decide, by decide, _, rfl⟩

end Sys2Proof.Tests
end

section
/-! PROOFS. The state family: canonical memory, the halted mark, the access matrix of R38, the inputs, and reset. -/

namespace Sys2Proof.Machine

/-! ## The write columns of R38 -/

/-- The write columns of R38: `t` differs from `s` only where the instruction `i` may write.
Each column has a default, that it keeps its old value (`pc`: that it advances by 2), so that a proof names only the columns written otherwise. -/
structure WritesWithin (i : Instr) (s t : State) : Prop where
  V : ∀ j : Reg, t.V[j] = s.V[j] ∨ mayWriteReg i j := by exact fun _ => .inl rfl
  I : t.I = s.I ∨ (∃ nnn, i = .ldI nnn) ∨ (∃ x, i = .addI x) ∨ ∃ x, i = .ldF x := by exact .inl rfl
  stackSp : (t.stack = s.stack ∧ t.sp = s.sp) ∨ i = .ret ∨ ∃ nnn, i = .call nnn := by exact .inl ⟨rfl, rfl⟩
  stack : t.stack = s.stack ∨ ∃ nnn, i = .call nnn := by exact .inl rfl
  DT : t.DT = s.DT ∨ ∃ x, i = .ldDTVx x := by exact .inl rfl
  ST : t.ST = s.ST ∨ ∃ x, i = .ldSTVx x := by exact .inl rfl
  display : t.display = s.display ∨ i = .cls ∨ ∃ x y n, i = .drw x y n := by exact .inl rfl
  mem : t.mem = s.mem ∨ (∃ x, i = .ldB x) ∨ ∃ x, i = .storeRegs x := by exact .inl rfl
  pc : t.pc = s.pc ∨ t.pc = s.pc + 2 ∨ t.pc = s.pc + 4 ∨ i = .ret ∨ (∃ nnn, i = .jp nnn) ∨ (∃ nnn, i = .call nnn) ∨
    ∃ nnn, i = .jpV0 nnn := by exact .inr (.inl rfl)
  port : t.port = s.port := by rfl
  upcoming : t.upcoming = s.upcoming := by rfl
  drawn : t.drawn = s.drawn := by rfl

namespace WritesWithin

variable {i : Instr} {s t u : State} {x : Reg} {b : Byte} {k : Nat} {done : Result}

/-! ### How an execute phase ends -/

/-- The outputs are no column of R38. -/
theorem of_latch (hu : WritesWithin i s u) (st : Status) (e : Option Event) (d : Bool) :
    WritesWithin i s (latch u st e d) :=
  ⟨hu.V, hu.I, hu.stackSp, hu.stack, hu.DT, hu.ST, hu.display, hu.mem, hu.pc, hu.port, hu.upcoming, hu.drawn⟩

theorem of_normal (h : normal u = .next t) (hu : WritesWithin i s u) : WritesWithin i s t := by
  cases h
  exact of_latch hu _ _ _

theorem of_normalDraw (h : normalDraw u = .next t) (hu : WritesWithin i s u) : WritesWithin i s t := by
  cases h
  exact of_latch hu _ _ _

/-- Raising an error writes at most `pc`, by 2 (R99, R102). -/
theorem of_raiseError (e : Event) : WritesWithin i s (raiseError e s) := by
  cases e with
  | addressOutOfRange space addr => exact { pc := .inl rfl }
  | unknownOpcode w p => exact {}
  | stackOverflow p => exact {}
  | stackUnderflow p => exact {}

theorem of_dataAccess (h : dataAccess s k done = .next t) (hdone : done = .next t → WritesWithin i s t) :
    WritesWithin i s t := by
  rcases dataAccess_cases s k done with h' | ⟨a, h'⟩ <;> rw [h'] at h
  · exact hdone h
  · cases h
    exact of_raiseError _

theorem of_keyAccess (h : keyAccess s x done = .next t) (hdone : done = .next t → WritesWithin i s t) :
    WritesWithin i s t := by
  rcases keyAccess_cases s x done with h' | ⟨a, h'⟩ <;> rw [h'] at h
  · exact hdone h
  · cases h
    exact of_raiseError _

/-! ### The shared effects -/

/-- A register the instruction may write. The flag instructions and `DXYN` write the flag this way too. -/
theorem of_writeV (hu : WritesWithin i s (advance u)) (hx : mayWriteReg i x) : WritesWithin i s (advance (writeV u x b)) :=
  { hu with
    V := fun j => by
      rcases eq_or_ne j x with rfl | hj
      · exact .inr hx
      · simpa [Fin.val_ne_of_ne hj] using hu.V j }

/-- The flag, then the result. -/
theorem of_writeFlagThen {f : Bool} (hF : mayWriteReg i regF) (hx : mayWriteReg i x) :
    WritesWithin i s (advance (writeFlagThen s f x b)) :=
  of_writeV (of_writeV {} hF) hx

/-- A skip, taken or not. -/
theorem of_skipIf (c : Bool) : WritesWithin i s (skipIf c s) where
  pc := by cases c <;> simp

end WritesWithin

/-- Every execute phase writes within its row of R38. -/
theorem exec_writesWithin {i : Instr} {s t : State} (h : exec i s = .next t) : WritesWithin i s t := by
  cases i with
  | cls => exact .of_normalDraw h { display := .inr (.inl rfl) }
  | ret =>
    rcases exec_ret_cases h with ⟨-, rfl⟩ | rfl
    · exact { stackSp := .inr (.inl rfl), pc := by simp }
    · exact .of_raiseError _
  | jp nnn => exact .of_normal h { pc := by simp }
  | call nnn =>
    rcases exec_call_cases h with ⟨-, rfl⟩ | rfl
    · exact { stackSp := by simp, stack := by simp, pc := by simp }
    · exact .of_raiseError _
  | jpV0 nnn => exact .of_normal h { pc := by simp }
  | seImm x nn => exact .of_normal h (.of_skipIf _)
  | sneImm x nn => exact .of_normal h (.of_skipIf _)
  | seReg x y => exact .of_normal h (.of_skipIf _)
  | sneReg x y => exact .of_normal h (.of_skipIf _)
  | skp x => exact .of_keyAccess h fun h => .of_normal h (.of_skipIf _)
  | sknp x => exact .of_keyAccess h fun h => .of_normal h (.of_skipIf _)
  | ldImm x nn => exact .of_normal h (.of_writeV {} rfl)
  | addImm x nn => exact .of_normal h (.of_writeV {} rfl)
  | ldReg x y => exact .of_normal h (.of_writeV {} rfl)
  | orReg x y => exact .of_normal h (.of_writeV {} rfl)
  | andReg x y => exact .of_normal h (.of_writeV {} rfl)
  | xorReg x y => exact .of_normal h (.of_writeV {} rfl)
  | rnd x nn => exact .of_normal h (.of_writeV {} rfl)
  | ldVxDT x => exact .of_normal h (.of_writeV {} rfl)
  | ldVxK x =>
    simp only [exec, execLdVxK] at h
    split at h
    · cases h
      exact .of_latch { pc := .inl rfl } _ _ _
    · exact .of_normal h (.of_writeV {} rfl)
  | addReg x y => exact .of_normal h (.of_writeFlagThen (.inr rfl) (.inl rfl))
  | subReg x y => exact .of_normal h (.of_writeFlagThen (.inr rfl) (.inl rfl))
  | subnReg x y => exact .of_normal h (.of_writeFlagThen (.inr rfl) (.inl rfl))
  | shr x y => exact .of_normal h (.of_writeFlagThen (.inr rfl) (.inl rfl))
  | shl x y => exact .of_normal h (.of_writeFlagThen (.inr rfl) (.inl rfl))
  | drw x y n => exact .of_dataAccess h fun h => .of_normalDraw h (.of_writeV { display := by simp } rfl)
  | ldI nnn => exact .of_normal h { I := by simp }
  | addI x => exact .of_normal h { I := by simp }
  | ldF x => exact .of_normal h { I := by simp }
  | ldDTVx x => exact .of_normal h { DT := by simp }
  | ldSTVx x => exact .of_normal h { ST := by simp }
  | ldB x => exact .of_dataAccess h fun h => .of_normal h { mem := by simp }
  | storeRegs x => exact .of_dataAccess h fun h => .of_normal h { mem := by simp }
  | loadRegs x =>
    refine .of_dataAccess h fun h => .of_normal h { V := fun j => ?_ }
    rcases Nat.lt_or_ge x.val j.val with hj | hj
    · have hj : ¬ j.val < x.val + 1 := by omega
      exact .inl (by simp [loadInto_get _ _ _ x.isLt, hj])
    · exact .inr hj

/-- Settles O57: the columns of `exec_writesWithin` in the statement's order. -/
theorem accessMatrixOfWrites : Obligations.AccessMatrixOfWrites := by
  intro i s t h
  obtain ⟨hV, hI, hsp, hst, hDT, hST, hd, hm, hpc, hp, hu, hn⟩ := exec_writesWithin h
  exact ⟨hV, hI, hsp, hst, hDT, hST, hd, hm, hpc, hp, hu, hn⟩

/-! ## Canonical memory -/

@[simp] theorem raiseError_mem (e : Event) (s : State) : (raiseError e s).mem = s.mem := by
  cases e <;> rfl

/-- A checked store is one run of stores, or the error of R53 with nothing stored. -/
theorem dataAccess_storeBytes_mem {s t : State} {k a : Nat} {l : List Byte}
    (h : dataAccess s k (normal (advance (storeBytes s a l))) = .next t) :
    t.mem = s.mem ∨ ∃ a l, t.mem = memWriteList s.mem a l := by
  rcases dataAccess_cases s k (normal (advance (storeBytes s a l))) with h' | ⟨b, h'⟩ <;> rw [h'] at h <;> cases h
  · exact .inr ⟨a, l, rfl⟩
  · exact .inl rfl

/-- What an execute phase does to memory: nothing, or one run of stores by `FX33` or `FX55`. -/
theorem exec_mem_cases {i : Instr} {s t : State} (h : exec i s = .next t) :
    t.mem = s.mem ∨ ∃ a l, t.mem = memWriteList s.mem a l := by
  rcases (exec_writesWithin h).mem with hm | ⟨x, rfl⟩ | ⟨x, rfl⟩
  · exact .inl hm
  · exact dataAccess_storeBytes_mem h
  · exact dataAccess_storeBytes_mem h

/-- An execute phase keeps the canonical form. -/
theorem exec_keeps_wf {i : Instr} {s t : State} (hs : Memory.wf s.mem = true) (h : exec i s = .next t) :
    Memory.wf t.mem = true := by
  rcases exec_mem_cases h with hm | ⟨a, l, hm⟩ <;> rw [hm]
  · exact hs
  · exact memWriteList_wf l hs a

/-- A cycle keeps the canonical form: outside the execute phase nothing writes memory. -/
theorem step_keeps_wf {s t : State} (hs : Memory.wf s.mem = true) (h : step s = .next t) :
    Memory.wf t.mem = true := by
  rcases step_cases h with ⟨-, rfl⟩ | ⟨-, -, rfl⟩ | ⟨w, e, -, -, -, rfl⟩ | ⟨w, i, u, -, -, -, hx, rfl⟩
  · simpa [haltedCycle] using hs
  · simpa [fetchErrorCycle] using hs
  · simpa [unknownCycle] using hs
  · simpa using exec_keeps_wf hs hx

/-- A load that succeeds fits, and stores its bytes at 0x200 (R232). -/
theorem loadProgram_next {l : List Byte} {s t : State} (h : loadProgram l s = .next t) :
    l.length ≤ Config.progMax ∧ t = storeBytes s Config.progBase l := by
  unfold loadProgram at h
  split at h <;> cases h
  exact ⟨by omega, rfl⟩

/-- Settles O55: a cycle writes memory in its execute phase alone, and a run of stores keeps the form. -/
theorem stepKeepsMemoryCanonical : Obligations.StepKeepsMemoryCanonical := by
  refine ⟨fun s t hs h => step_keeps_wf hs h, fun l s t hs h => ?_⟩
  obtain ⟨-, rfl⟩ := loadProgram_next h
  exact memWriteList_wf l hs _

/-! ## The halted mark -/

/-- `halted` stands exactly when the latched event is an out-of-range access (R31). -/
def HaltedByEvent (u : State) : Prop :=
  u.halted = true ↔ ∃ space addr, u.out.event = some (.addressOutOfRange space addr)

theorem HaltedByEvent.of_raiseError (e : Event) {s : State} (hs : s.halted = false) :
    HaltedByEvent (raiseError e s) := by
  simp [HaltedByEvent, raiseError_halted_iff, (raiseError_out e s).1, hs]

/-- A live state that latches no event. -/
theorem HaltedByEvent.of_quiet {u : State} (hu : u.halted = false) (he : u.out.event = none) : HaltedByEvent u := by
  simp [HaltedByEvent, hu, he]

theorem HaltedByEvent.of_endCycle {u : State} (hu : HaltedByEvent u) : HaltedByEvent (endCycle u) := by
  rw [HaltedByEvent, endCycle_halted, (endCycle_out u).1]
  exact hu

/-- Of the ways of R94 only an error latches an event, and only one kind of error halts. -/
theorem HaltedByEvent.of_exec {i : Instr} {s u : State} (hs : s.halted = false) (h : exec i s = .next u) :
    HaltedByEvent u := by
  rcases exec_ends h with ⟨d, -, hout, hh, -, -⟩ | ⟨-, rfl⟩ | ⟨-, e, rfl⟩
  · exact .of_quiet (hh.trans hs) (by rw [hout]; rfl)
  · exact .of_quiet hs rfl
  · exact .of_raiseError e hs

/-- A live cycle ends halted exactly by an out-of-range access. -/
theorem HaltedByEvent.of_step {s t : State} (hs : s.halted = false) (h : step s = .next t) : HaltedByEvent t := by
  rcases step_cases h with ⟨hh, -⟩ | ⟨-, -, rfl⟩ | ⟨w, e, -, -, -, rfl⟩ | ⟨w, i, u, -, -, -, hx, rfl⟩
  · simp [hs] at hh
  · exact .of_endCycle (.of_raiseError _ hs)
  · exact .of_endCycle (.of_raiseError _ hs)
  · exact .of_endCycle (.of_exec hs hx)

/-- The host's turn presents the next inputs (R236). -/
theorem inputsPresented_nextInputs (u : State) : InputsPresented u (nextInputs u) := by
  refine ⟨nextInputs_eq u, fun i rest h => ?_, fun h => ?_⟩
  · simp [nextInputs_cons u i rest h]
  · simp [nextInputs_nil u h, h]

/-- A cycle begun halted (R102). -/
theorem step_halted {s : State} (hs : s.halted = true) : step s = .next (haltedCycle s) := by
  simp [step, hs]

/-- Settles O48: `HaltedByEvent` for a live cycle; a halted one runs `haltedCycle`. -/
theorem onlyAddressOutOfRangeHalts : Obligations.OnlyAddressOutOfRangeHalts := by
  refine ⟨fun font => rfl, fun font s => rfl, fun s t hs h => HaltedByEvent.of_step hs h, fun s t hs h => ?_, fun l s t h => ?_⟩
  · rw [step_halted hs] at h
    cases h
    exact inputsPresented_nextInputs (latch s .halted none false)
  · obtain ⟨-, rfl⟩ := loadProgram_next h
    rfl

/-! ## Who reads the inputs and `ST` -/

/-- The state with other inputs and another sound timer. -/
def mapPortST (g : Inputs → Inputs) (f : Byte → Byte) (s : State) : State :=
  { s with port := g s.port, ST := f s.ST }

section
variable {g : Inputs → Inputs} {f : Byte → Byte}

theorem pop_mapPortST (s : State) : pop (mapPortST g f s) = (pop s).map (Prod.map id (mapPortST g f)) := by
  rcases Nat.eq_zero_or_pos s.sp.val with hs | hs
  · rw [pop_empty hs, pop_empty (s := mapPortST g f s) hs]
    rfl
  · rw [pop_some hs, pop_some (s := mapPortST g f s) hs]
    rfl

theorem push_mapPortST (s : State) (w : Word) : push (mapPortST g f s) w = (push s w).map (mapPortST g f) := by
  rcases Nat.lt_or_ge s.sp.val 16 with hs | hs
  · rw [push_room w hs, push_room (s := mapPortST g f s) w hs]
    rfl
  · have hs : s.sp.val = 16 := by omega
    rw [push_full w hs, push_full (s := mapPortST g f s) w hs]
    rfl

/-- The range check reads `I` alone, and its error reads neither the inputs nor `ST`. -/
theorem dataAccess_mapPortST (s : State) (k : Nat) {done done' : Result} (h : done' = mapNext (mapPortST g f) done) :
    dataAccess (mapPortST g f s) k done' = mapNext (mapPortST g f) (dataAccess s k done) := by
  have hr : outOfRange (mapPortST g f s) k = outOfRange s k := rfl
  unfold dataAccess
  rw [hr, h]
  cases outOfRange s k <;> rfl

/-- The key number's check reads `V[x]` alone. -/
theorem keyAccess_mapPortST (s : State) (x : Reg) {done done' : Result} (h : done' = mapNext (mapPortST g f) done) :
    keyAccess (mapPortST g f s) x done' = mapNext (mapPortST g f) (keyAccess s x done) := by
  have hr : readV (mapPortST g f s) x = readV s x := rfl
  unfold keyAccess
  rw [hr, h, apply_ite (mapNext (mapPortST g f))]
  rfl

/-- An instruction does the same under other inputs and another `ST`, unless it reads what differs or overwrites `ST`.
The arms closed by `rfl` together touch neither. -/
theorem exec_mapPortST (i : Instr) (s : State) (hrnd : (∀ x nn, i ≠ .rnd x nn) ∨ ∀ p, (g p).rnd = p.rnd)
    (hkeys : ((∀ x, i ≠ .skp x) ∧ (∀ x, i ≠ .sknp x) ∧ ∀ x, i ≠ .ldVxK x) ∨ ∀ p, (g p).keys = p.keys)
    (hST : (∀ x, i ≠ .ldSTVx x) ∨ ∀ b, f b = b) :
    exec i (mapPortST g f s) = mapNext (mapPortST g f) (exec i s) := by
  cases i with
  | ret =>
    simp only [exec, execRet, pop_mapPortST]
    cases pop s <;> rfl
  | call nnn =>
    have hpc : (mapPortST g f s).pc = s.pc := rfl
    simp only [exec, execCall, hpc, push_mapPortST]
    cases push s (s.pc + 2) <;> rfl
  | rnd x nn =>
    have hr : (mapPortST g f s).port.rnd = s.port.rnd := hrnd.resolve_left (fun h => h x nn rfl) s.port
    simp only [exec, execRnd, hr]
    rfl
  | skp x =>
    have hk : (mapPortST g f s).port.keys = s.port.keys := hkeys.resolve_left (fun h => h.1 x rfl) s.port
    exact keyAccess_mapPortST s x (by simp only [keyPressed, hk]; rfl)
  | sknp x =>
    have hk : (mapPortST g f s).port.keys = s.port.keys := hkeys.resolve_left (fun h => h.2.1 x rfl) s.port
    exact keyAccess_mapPortST s x (by simp only [keyPressed, hk]; rfl)
  | ldVxK x =>
    have hk : (mapPortST g f s).port.keys = s.port.keys := hkeys.resolve_left (fun h => h.2.2 x rfl) s.port
    simp only [exec, execLdVxK, hk]
    cases leastKey s.port.keys <;> rfl
  | ldSTVx x =>
    have hf := hST.resolve_left fun h => h x rfl
    simp [exec, execLdSTVx, normal_eq, mapPortST, advance, setPc, setST, hf]
  | drw x y n => exact dataAccess_mapPortST s n.val rfl
  | ldB x => exact dataAccess_mapPortST s 3 rfl
  | storeRegs x => exact dataAccess_mapPortST s (x.val + 1) rfl
  | loadRegs x => exact dataAccess_mapPortST s (x.val + 1) rfl
  | _ => rfl

end

/-- Settles O58: three cases of `exec_mapPortST`; what `FX18` overwrites it does not read. -/
theorem inputsAreReadOnlyByTheirInstructions : Obligations.InputsAreReadOnlyByTheirInstructions := by
  intro i s t h
  refine ⟨fun r hi => ?_, fun k h1 h2 h3 => ?_, fun b hi => ?_, ?_⟩
  · have hm := exec_mapPortST (g := fun p => { p with rnd := r }) (f := id) i s (.inl hi) (.inr fun _ => rfl) (.inr fun _ => rfl)
    rwa [h] at hm
  · have hm := exec_mapPortST (g := fun p => { p with keys := k }) (f := id) i s (.inr fun _ => rfl) (.inl ⟨h1, h2, h3⟩) (.inr fun _ => rfl)
    rwa [h] at hm
  · have hm := exec_mapPortST (g := id) (f := fun _ => b) i s (.inr fun _ => rfl) (.inr fun _ => rfl) (.inl hi)
    rwa [h] at hm
  · rintro b ⟨x, rfl⟩
    exact h

/-! ## Reset -/

theorem pixel_resetWith (font : Font) (p : Nat) : pixel (State.resetWith font) p = false :=
  pixelOf_clear p

/-- Settles O50: R36 row by row. -/
theorem resetStateIsTheSpecs : Obligations.ResetStateIsTheSpecs := by
  refine ⟨fun font => ⟨fun j => ?_, rfl, rfl, fun j => ?_, rfl, rfl, rfl, fun p _ => pixel_resetWith font p,
    fun a h => memRead_fontMemory_inside font a h, fun a h _ => memRead_fontMemory_outside font a h, rfl⟩, rfl⟩
  · simp [State.resetWith]
  · simp [State.resetWith]

theorem resetWith_boundedTargets (font : Font) : BoundedTargets (State.resetWith font) :=
  ⟨by simp [State.resetWith], fun i h => by simp [State.resetWith]⟩

/-- Settles O54: the font's listed bytes are canonical, whatever the font. -/
theorem resetMeetsTheInvariants : Obligations.ResetMeetsTheInvariants := fun font =>
  ⟨fontMemory_wf font, resetWith_boundedTargets font, rfl, rfl⟩

end Sys2Proof.Machine
end

section
/-! PROOFS. The memory family: the primitives of R52, and stores seen by the next fetch (R61, R243). -/

namespace Sys2Proof.Machine

/-! ## The primitives of R52 -/

/-- Canonical memories that read alike on 0..4095 are equal: from 4096 up both read as unlisted. -/
theorem memory_ext_inRange {m m' : Memory} (h : m.wf = true) (h' : m'.wf = true)
    (hr : ∀ a, a ≤ 4095 → memRead m a = memRead m' a) : m = m' := by
  refine memory_ext h h' fun a => ?_
  rcases Nat.lt_or_ge a Config.memSize with ha | ha
  · exact hr a (Nat.le_of_lt_succ ha)
  · rw [memRead_above h ha, memRead_above h' ha]

/-- Settles O53: `memRead_memWrite` at an address in range, and `memory_ext_inRange`. -/
theorem readAfterWrite : Obligations.ReadAfterWrite := by
  refine ⟨fun m a b v hm ha => ?_, fun m m' hm hm' hr => memory_ext_inRange hm hm' hr⟩
  have hsize : a < Config.memSize := Nat.lt_succ_of_le ha
  simp [memRead_memWrite hm, hsize]

/-! ## A register block stored over the next instruction -/

/-- A register block in range is stored, and `pc` advances (R155). -/
theorem exec_storeRegs_inRange {x : Reg} {s : State} (h : s.I.toNat + x.val ≤ 4095) :
    exec (.storeRegs x) s = normal (advance (storeBytes s s.I.toNat (regBlock s x))) :=
  dataAccess_inRange _ (.inr (by omega))

/-- After the store of a register block in range, `V[i]` is read back at `I + i` (R155). -/
theorem memRead_of_exec_storeRegs {x : Reg} {s t : State} (hm : s.mem.wf = true) (hI : s.I.toNat + x.val ≤ 4095)
    (h : exec (.storeRegs x) s = .next t) (i : Reg) (hi : i.val ≤ x.val) : memRead t.mem (s.I.toNat + i.val) = s.V[i] := by
  have hlen : i.val < (regBlock s x).length := by rw [regBlock_length]; omega
  have hfit : s.I.toNat + (regBlock s x).length ≤ Config.memSize := by
    rw [regBlock_length, Config.memSize]; omega
  rw [exec_storeRegs_inRange hI] at h
  cases h
  calc memRead (memWriteList s.mem s.I.toNat (regBlock s x)) (s.I.toNat + i.val)
    _ = (regBlock s x)[i.val] := memRead_memWriteList_inside _ hm hlen hfit
    _ = s.V[i] := regBlock_get s x i.val hlen

/-- Settles O60: the fetch reads at `pc + 2 = I`, where the block's first two registers now lie. -/
theorem storesAreSeenByTheNextFetch : Obligations.StoresAreSeenByTheNextFetch := by
  intro x s t hm hpc hx hIpc hI h
  have htpc : t.pc = s.pc + 2 := by
    rw [exec_storeRegs_inRange hI] at h
    cases h
    rfl
  have hat : (endCycle t).pc.toNat = s.I.toNat := by
    rw [endCycle_pc, htpc]
    bv_omega
  have hV := memRead_of_exec_storeRegs hm hI h
  have hhi : memRead t.mem s.I.toNat = s.V[0] := hV 0 (Nat.zero_le _)
  have hlo : memRead t.mem (s.I.toNat + 1) = s.V[1] := hV 1 hx
  rw [fetch_ok (by omega), hat, endCycle_mem, hhi, hlo]

end Sys2Proof.Machine
end

section
/-! PROOFS. The encoding family: the fields of R71, the rows of R75, the decoder and the encoder against them (R84), and a word on no row (R78). -/

namespace Sys2Proof

/-! ## Masks as keys -/

/-- The field `op` as a number; the other fields have such a lemma in Laws/Decode.lean (R71). -/
theorem fieldOp_eq (w : Word) : fieldOp w = w.toNat / 4096 := rfl

section
variable {p : Word}

/-- A pattern that its mask keeps is met exactly on the pattern's high nibble. -/
theorem key_F000_iff (hp : p &&& 0xF000#16 = p) (w : Word) :
    w &&& 0xF000#16 = p ↔ w.toNat / 4096 = p.toNat / 4096 := by
  rw [mask_F000_iff] at hp ⊢
  omega

/-- A pattern that its mask keeps is met exactly on the pattern's high and low nibble. -/
theorem key_F00F_iff (hp : p &&& 0xF00F#16 = p) (w : Word) :
    w &&& 0xF00F#16 = p ↔ w.toNat / 4096 = p.toNat / 4096 ∧ w.toNat % 16 = p.toNat % 16 := by
  rw [mask_F00F_iff] at hp ⊢
  omega

/-- A pattern that its mask keeps is met exactly on the pattern's high nibble and low byte. -/
theorem key_F0FF_iff (hp : p &&& 0xF0FF#16 = p) (w : Word) :
    w &&& 0xF0FF#16 = p ↔ w.toNat / 4096 = p.toNat / 4096 ∧ w.toNat % 256 = p.toNat % 256 := by
  rw [mask_F0FF_iff] at hp ⊢
  omega

/-! ## The word forms of R84: a word is one exactly when it meets the mask and holds the operands in their fields -/

theorem encodeA_eq_iff (hp : p &&& 0xF000#16 = p) (nnn : Addr12) (w : Word) :
    encodeA p nnn = w ↔ w &&& 0xF000#16 = p ∧ fieldNNN w = nnn := by
  rw [mask_F000_iff] at hp ⊢
  rw [← BitVec.toNat_inj, encodeA_toNat _ hp.symm, ← BitVec.toNat_inj (y := nnn), fieldNNN_toNat]
  omega

theorem encodeI_eq_iff (hp : p &&& 0xF000#16 = p) (x : Reg) (nn : Byte) (w : Word) :
    encodeI p x nn = w ↔ w &&& 0xF000#16 = p ∧ fieldX w = x ∧ fieldNN w = nn := by
  have hk : p.toNat / 4096 < 16 := by omega
  rw [mask_F000_iff] at hp ⊢
  rw [← BitVec.toNat_inj, encodeI_toNat _ hk hp.symm, Fin.ext_iff, ← BitVec.toNat_inj (y := nn), fieldX_val, fieldNN_toNat]
  omega

theorem encodeR_eq_iff (hp : p &&& 0xF00F#16 = p) (x y : Reg) (w : Word) :
    encodeR p x y = w ↔ w &&& 0xF00F#16 = p ∧ fieldX w = x ∧ fieldY w = y := by
  have hk : p.toNat / 4096 < 16 := by omega
  have hl : p.toNat % 16 < 16 := by omega
  rw [mask_F00F_iff] at hp ⊢
  have hpw : p = BitVec.ofNat 16 (p.toNat / 4096 * 4096 + p.toNat % 16) := by rw [hp, BitVec.ofNat_toNat, BitVec.setWidth_eq]
  rw [← BitVec.toNat_inj, encodeR_toNat _ _ hk hl hpw, Fin.ext_iff, Fin.ext_iff, fieldX_val, fieldY_val]
  omega

theorem encodeD_eq_iff (hp : p &&& 0xF000#16 = p) (x y : Reg) (n : Height) (w : Word) :
    encodeD p x y n = w ↔ w &&& 0xF000#16 = p ∧ fieldX w = x ∧ fieldY w = y ∧ fieldN w = n := by
  have hk : p.toNat / 4096 < 16 := by omega
  rw [mask_F000_iff] at hp ⊢
  rw [← BitVec.toNat_inj, encodeD_toNat _ hk hp.symm, Fin.ext_iff, Fin.ext_iff, Fin.ext_iff, fieldX_val, fieldY_val, fieldN_val]
  omega

theorem encodeX_eq_iff (hp : p &&& 0xF0FF#16 = p) (x : Reg) (w : Word) :
    encodeX p x = w ↔ w &&& 0xF0FF#16 = p ∧ fieldX w = x := by
  have hk : p.toNat / 4096 < 16 := by omega
  have hl : p.toNat % 256 < 256 := by omega
  rw [mask_F0FF_iff] at hp ⊢
  rw [← BitVec.toNat_inj, encodeX_toNat _ _ hk hl hp.symm, Fin.ext_iff, fieldX_val]
  omega

end

/-! ## The instruction a word stands for -/

/-- The instruction on `i`'s row whose operands are the fields of `w`. -/
def withFieldsOf (w : Word) (i : Instr) : Instr :=
  match i with
  | .cls         => .cls
  | .ret         => .ret
  | .jp _        => .jp (fieldNNN w)
  | .call _      => .call (fieldNNN w)
  | .seImm _ _   => .seImm (fieldX w) (fieldNN w)
  | .sneImm _ _  => .sneImm (fieldX w) (fieldNN w)
  | .seReg _ _   => .seReg (fieldX w) (fieldY w)
  | .ldImm _ _   => .ldImm (fieldX w) (fieldNN w)
  | .addImm _ _  => .addImm (fieldX w) (fieldNN w)
  | .ldReg _ _   => .ldReg (fieldX w) (fieldY w)
  | .orReg _ _   => .orReg (fieldX w) (fieldY w)
  | .andReg _ _  => .andReg (fieldX w) (fieldY w)
  | .xorReg _ _  => .xorReg (fieldX w) (fieldY w)
  | .addReg _ _  => .addReg (fieldX w) (fieldY w)
  | .subReg _ _  => .subReg (fieldX w) (fieldY w)
  | .shr _ _     => .shr (fieldX w) (fieldY w)
  | .subnReg _ _ => .subnReg (fieldX w) (fieldY w)
  | .shl _ _     => .shl (fieldX w) (fieldY w)
  | .sneReg _ _  => .sneReg (fieldX w) (fieldY w)
  | .ldI _       => .ldI (fieldNNN w)
  | .jpV0 _      => .jpV0 (fieldNNN w)
  | .rnd _ _     => .rnd (fieldX w) (fieldNN w)
  | .drw _ _ _   => .drw (fieldX w) (fieldY w) (fieldN w)
  | .skp _       => .skp (fieldX w)
  | .sknp _      => .sknp (fieldX w)
  | .ldVxDT _    => .ldVxDT (fieldX w)
  | .ldVxK _     => .ldVxK (fieldX w)
  | .ldDTVx _    => .ldDTVx (fieldX w)
  | .ldSTVx _    => .ldSTVx (fieldX w)
  | .addI _      => .addI (fieldX w)
  | .ldF _       => .ldF (fieldX w)
  | .ldB _       => .ldB (fieldX w)
  | .storeRegs _ => .storeRegs (fieldX w)
  | .loadRegs _  => .loadRegs (fieldX w)

@[simp] theorem rowOf_withFieldsOf (w : Word) (i : Instr) : rowOf (withFieldsOf w i) = rowOf i := by
  cases i <;> rfl

/-- The word lies on the instruction's row and holds its operands in their fields (R71, R75). -/
def StandsFor (w : Word) (i : Instr) : Prop :=
  w &&& (rowOf i).mask = (rowOf i).pattern ∧ withFieldsOf w i = i

/-- The encoder puts out the one word that stands for the instruction (R84). -/
theorem encode_eq_iff (i : Instr) (w : Word) : encode i = w ↔ StandsFor w i := by
  cases i with
  | cls | ret => simp [encode, StandsFor, rowOf, withFieldsOf, and_FFFF, eq_comm]
  | jp | call | ldI | jpV0 => simp [encode, StandsFor, rowOf, withFieldsOf, encodeA_eq_iff]
  | seImm | sneImm | ldImm | addImm | rnd => simp [encode, StandsFor, rowOf, withFieldsOf, encodeI_eq_iff]
  | seReg | ldReg | orReg | andReg | xorReg | addReg | subReg | shr | subnReg | shl | sneReg =>
    simp [encode, StandsFor, rowOf, withFieldsOf, encodeR_eq_iff]
  | drw => simp [encode, StandsFor, rowOf, withFieldsOf, encodeD_eq_iff]
  | skp | sknp | ldVxDT | ldVxK | ldDTVx | ldSTVx | addI | ldF | ldB | storeRegs | loadRegs =>
    simp [encode, StandsFor, rowOf, withFieldsOf, encodeX_eq_iff]

/-- A word on an instruction's row decodes to that instruction, with the operands of the word (R75). -/
theorem decode_of_onRow {w : Word} (i : Instr) (h : w &&& (rowOf i).mask = (rowOf i).pattern) :
    decode w = .ok (withFieldsOf w i) := by
  cases i with
  | cls | ret =>
    simp only [rowOf, and_FFFF] at h
    subst h
    rfl
  | jp | call | ldI | jpV0 | seImm | sneImm | ldImm | addImm | rnd | drw =>
    simp only [rowOf, key_F000_iff, BitVec.reduceAnd] at h
    simp [decode, fieldOp_eq, h, withFieldsOf]
  | seReg | sneReg =>
    simp only [rowOf, key_F00F_iff, BitVec.reduceAnd] at h
    simp [decode, fieldOp_eq, h, withFieldsOf]
  | ldReg | orReg | andReg | xorReg | addReg | subReg | shr | subnReg | shl =>
    simp only [rowOf, key_F00F_iff, BitVec.reduceAnd] at h
    simp [decode, decodeFamily8, fieldOp_eq, h, withFieldsOf]
  | skp | sknp =>
    simp only [rowOf, key_F0FF_iff, BitVec.reduceAnd] at h
    simp [decode, fieldOp_eq, h, withFieldsOf]
  | ldVxDT | ldVxK | ldDTVx | ldSTVx | addI | ldF | ldB | storeRegs | loadRegs =>
    simp only [rowOf, key_F0FF_iff, BitVec.reduceAnd] at h
    simp [decode, decodeFamilyF, fieldOp_eq, h, withFieldsOf]

/-- Family 8 yields what the word stands for. -/
theorem standsFor_of_decodeFamily8 {w : Word} {i : Instr} (hop : w.toNat / 4096 = 8) (h : decodeFamily8 w = .ok i) :
    StandsFor w i := by
  unfold decodeFamily8 at h
  split at h <;> cases h <;> simp_all [StandsFor, rowOf, withFieldsOf, key_F00F_iff]

/-- Family F yields what the word stands for. -/
theorem standsFor_of_decodeFamilyF {w : Word} {i : Instr} (hop : w.toNat / 4096 = 15) (h : decodeFamilyF w = .ok i) :
    StandsFor w i := by
  unfold decodeFamilyF at h
  split at h <;> cases h <;> simp_all [StandsFor, rowOf, withFieldsOf, key_F0FF_iff]

/-- The decoder yields nothing but what the word stands for. The cases are the families by high nibble: 8 and F, none, 0 (two whole words),
5 and 9 (keyed on `n`), E (keyed on `nn`), and those of one instruction. -/
theorem standsFor_of_decode {w : Word} {i : Instr} (h : decode w = .ok i) : StandsFor w i := by
  unfold decode at h
  split at h
  case h_9 hop => exact standsFor_of_decodeFamily8 hop h
  case h_16 hop => exact standsFor_of_decodeFamilyF hop h
  case h_17 => cases h
  case h_1 =>
    split_ifs at h with hcls hret
    · cases h; exact ⟨hcls ▸ rfl, rfl⟩
    · cases h; exact ⟨hret ▸ rfl, rfl⟩
  case h_6 | h_10 =>
    split_ifs at h
    cases h
    simp_all [StandsFor, rowOf, withFieldsOf, key_F00F_iff, fieldOp_eq]
  case h_15 =>
    split_ifs at h <;> cases h <;> simp_all [StandsFor, rowOf, withFieldsOf, key_F0FF_iff, fieldOp_eq]
  all_goals
    cases h
    simp_all [StandsFor, rowOf, withFieldsOf, key_F000_iff, fieldOp_eq]

/-- What the decoder answers, said once (R75, R77). -/
theorem decode_eq_ok_iff (w : Word) (i : Instr) : decode w = .ok i ↔ StandsFor w i := by
  refine ⟨standsFor_of_decode, fun ⟨hrow, hfields⟩ => ?_⟩
  rw [decode_of_onRow i hrow, hfields]

/-- Decoder and encoder are inverse to each other (R84). -/
theorem decode_eq_ok_iff_encode (w : Word) (i : Instr) : decode w = .ok i ↔ encode i = w :=
  (decode_eq_ok_iff w i).trans (encode_eq_iff i w).symm

/-- Settles O5: every instruction is what its own word stands for. -/
theorem decodeOfEncodeIsTheInstruction : Obligations.DecodeOfEncodeIsTheInstruction :=
  fun i => (decode_eq_ok_iff_encode (encode i) i).mpr rfl

/-- Settles O6: the decoded instruction's own word is the one it stands for. -/
theorem encodeOfDecodedIsTheWord : Obligations.EncodeOfDecodedIsTheWord :=
  fun w i => (decode_eq_ok_iff_encode w i).mp

/-! ## The table of R75 -/

/-- One instruction of each row, in the table's order. -/
def rowSamples : List Instr :=
  [ .cls, .ret, .jp 0, .call 0, .seImm 0 0, .sneImm 0 0, .seReg 0 0, .ldImm 0 0, .addImm 0 0, .ldReg 0 0, .orReg 0 0,
    .andReg 0 0, .xorReg 0 0, .addReg 0 0, .subReg 0 0, .shr 0 0, .subnReg 0 0, .shl 0 0, .sneReg 0 0, .ldI 0, .jpV0 0,
    .rnd 0 0, .drw 0 0 0, .skp 0, .sknp 0, .ldVxDT 0, .ldVxK 0, .ldDTVx 0, .ldSTVx 0, .addI 0, .ldF 0, .ldB 0,
    .storeRegs 0, .loadRegs 0 ]

theorem opcodeTable_eq_map_rowOf : opcodeTable = rowSamples.map rowOf := rfl

/-- The table's rows are those of the instructions. -/
theorem mem_opcodeTable_iff (r : Row) : r ∈ opcodeTable ↔ ∃ i, rowOf i = r := by
  constructor
  · rw [opcodeTable_eq_map_rowOf, List.mem_map]
    exact fun ⟨i, _, hi⟩ => ⟨i, hi⟩
  · rintro ⟨i, rfl⟩
    cases i <;> simp [rowOf, opcodeTable, opcodeTable1, opcodeTable2, opcodeTable3]

/-- R75, for a row of the table: the decoder yields an instruction of the row exactly on the row's words. -/
theorem onRow_iff {r : Row} (hr : r ∈ opcodeTable) (w : Word) :
    w &&& r.mask = r.pattern ↔ ∃ i, decode w = .ok i ∧ rowOf i = r := by
  constructor
  · obtain ⟨i, rfl⟩ := (mem_opcodeTable_iff r).mp hr
    exact fun h => ⟨withFieldsOf w i, decode_of_onRow i h, rowOf_withFieldsOf w i⟩
  · rintro ⟨i, hi, rfl⟩
    exact (standsFor_of_decode hi).1

/-- Settles O3: `onRow_iff`, and an instruction's row is on the table. -/
theorem decodeSelectsExactlyTheTableRow : Obligations.DecodeSelectsExactlyTheTableRow :=
  ⟨rfl, fun w _ hr => onRow_iff hr w, fun _ i _ => (mem_opcodeTable_iff _).mpr ⟨i, rfl⟩⟩

/-- A word decodes exactly when it lies on a row of the table (R77). -/
theorem decode_ok_iff_exists_row (w : Word) : (∃ i, decode w = .ok i) ↔ ∃ r ∈ opcodeTable, w &&& r.mask = r.pattern := by
  constructor
  · exact fun ⟨i, hi⟩ => ⟨rowOf i, (mem_opcodeTable_iff _).mpr ⟨i, rfl⟩, (standsFor_of_decode hi).1⟩
  · rintro ⟨r, hr, hw⟩
    obtain ⟨i, hi, -⟩ := (onRow_iff hr w).mp hw
    exact ⟨i, hi⟩

/-- Settles O4: the masks read as keys list the same values under each high nibble; two rows of one word are the row of the one
instruction it decodes to. -/
theorem recognizedKeysOfEachFamily : Obligations.RecognizedKeysOfEachFamily := by
  refine ⟨fun w => ?_, fun w r r' hr hr' hw hw' => ?_⟩
  · have hcls : w = 0x00E0#16 ↔ w.toNat / 4096 = 0 ∧ w = 0x00E0#16 := (and_iff_right_of_imp (by rintro rfl; rfl)).symm
    have hret : w = 0x00EE#16 ↔ w.toNat / 4096 = 0 ∧ w = 0x00EE#16 := (and_iff_right_of_imp (by rintro rfl; rfl)).symm
    have hnibble : w.toNat / 4096 < 16 := by omega
    rw [decode_ok_iff_exists_row]
    simp only [opcodeTable, opcodeTable1, opcodeTable2, opcodeTable3, List.cons_append, List.nil_append,
      List.exists_mem_cons_iff, key_F000_iff, key_F00F_iff, key_F0FF_iff, and_FFFF, BitVec.reduceAnd, BitVec.toNat_ofNat]
    rw [hcls, hret]
    generalize w.toNat / 4096 = k at *
    interval_cases k <;> simp
  · obtain ⟨i, hi, rfl⟩ := (onRow_iff hr w).mp hw
    obtain ⟨i', hi', rfl⟩ := (onRow_iff hr' w).mp hw'
    cases hi.symm.trans hi'
    rfl

/-! ## The assembler of R82 -/

/-- The numbers the format uses stand in their own fields of the word (R71, R72). -/
def HoldsOperands (f : Format) (o : RawOperands) (w : Word) : Prop :=
  match f with
  | .Z => True
  | .A => (fieldNNN w).toNat = o.nnn
  | .I => (fieldX w).val = o.x ∧ (fieldNN w).toNat = o.nn
  | .R => (fieldX w).val = o.x ∧ (fieldY w).val = o.y
  | .D => (fieldX w).val = o.x ∧ (fieldY w).val = o.y ∧ (fieldN w).val = o.n
  | .X => (fieldX w).val = o.x

/-- The bits a format fixes: the column `mask` of R75. -/
def fixedBits (f : Format) : Word :=
  match f with
  | .Z => 0xFFFF#16
  | .A | .I | .D => 0xF000#16
  | .R => 0xF00F#16
  | .X => 0xF0FF#16

theorem opcodeTable_masks : ∀ r ∈ opcodeTable, r.mask = fixedBits r.format ∧ r.pattern &&& fixedBits r.format = r.pattern := by
  decide

/-- Numbers that fit assemble to a word on the row that holds each of them (R82, R84). -/
theorem assemble_onRow {r : Row} {o : RawOperands} (hr : r ∈ opcodeTable) (ho : o.wellFormed r.format = true) :
    ∃ w, assemble r o = some w ∧ w &&& r.mask = r.pattern ∧ HoldsOperands r.format o w := by
  obtain ⟨hmask, hp⟩ := opcodeTable_masks r hr
  refine ⟨_, if_pos ho, ?_⟩
  rw [hmask]
  obtain ⟨name, f, p, m⟩ := r
  cases f with
  | Z => exact ⟨hp, trivial⟩
  | A =>
    have hn : o.nnn < 4096 := by simpa [RawOperands.wellFormed] using ho
    have hw : encodeA p (BitVec.ofNat 12 o.nnn) = p ||| BitVec.ofNat 16 o.nnn := by
      rw [encodeA]; congr 1; bv_omega
    obtain ⟨hrow, hnnn⟩ := (encodeA_eq_iff hp _ _).mp hw
    exact ⟨hrow, by simp [HoldsOperands, hnnn]; omega⟩
  | I =>
    obtain ⟨hx, hn⟩ : o.x < 16 ∧ o.nn < 256 := by simpa [RawOperands.wellFormed] using ho
    have hw : encodeI p ⟨o.x, hx⟩ (BitVec.ofNat 8 o.nn) = p ||| (BitVec.ofNat 16 o.x <<< 8) ||| BitVec.ofNat 16 o.nn := by
      rw [encodeI]; congr 1; bv_omega
    obtain ⟨hrow, hX, hNN⟩ := (encodeI_eq_iff hp _ _ _).mp hw
    exact ⟨hrow, by simp [HoldsOperands, hX, hNN]; omega⟩
  | R =>
    obtain ⟨hx, hy⟩ : o.x < 16 ∧ o.y < 16 := by simpa [RawOperands.wellFormed] using ho
    obtain ⟨hrow, hX, hY⟩ := (encodeR_eq_iff hp ⟨o.x, hx⟩ ⟨o.y, hy⟩ _).mp rfl
    exact ⟨hrow, congrArg Fin.val hX, congrArg Fin.val hY⟩
  | D =>
    obtain ⟨⟨hx, hy⟩, hn⟩ : (o.x < 16 ∧ o.y < 16) ∧ o.n < 16 := by simpa [RawOperands.wellFormed] using ho
    obtain ⟨hrow, hX, hY, hN⟩ := (encodeD_eq_iff hp ⟨o.x, hx⟩ ⟨o.y, hy⟩ ⟨o.n, hn⟩ _).mp rfl
    exact ⟨hrow, congrArg Fin.val hX, congrArg Fin.val hY, congrArg Fin.val hN⟩
  | X =>
    have hx : o.x < 16 := by simpa [RawOperands.wellFormed] using ho
    obtain ⟨hrow, hX⟩ := (encodeX_eq_iff hp ⟨o.x, hx⟩ _).mp rfl
    exact ⟨hrow, congrArg Fin.val hX⟩

/-- Settles O7: the word lies on the row, so it decodes to an instruction of the row, whose word it is. -/
theorem assembledOperandsDecodeToTheRow : Obligations.AssembledOperandsDecodeToTheRow := by
  refine fun r o hr => ⟨fun ho => by simp [assemble, ho], fun ho => ?_⟩
  obtain ⟨w, hw, hrow, hfields⟩ := assemble_onRow hr ho
  obtain ⟨i, hi, hri⟩ := (onRow_iff hr w).mp hrow
  refine ⟨w, i, hw, hi, hri, encodeOfDecodedIsTheWord w i hi, ?_⟩
  revert hfields
  cases r.format <;> simp [HoldsOperands]

/-! ## Words and fields as the spec writes them -/

/-- Settles O1: the words are literals, so the decoder runs. -/
theorem specExampleWordsDecode : Obligations.SpecExampleWordsDecode := by
  unfold Obligations.SpecExampleWordsDecode
  decide

/-- A field of four bits, masked and shifted down, is a hexadecimal digit of the word (R71). -/
theorem maskedNibble_toNat (w : Word) {m : Word} {k : Nat} (hm : m >>> k = 0x000F#16) :
    ((w &&& m) >>> k).toNat = w.toNat / 2 ^ k % 16 := by
  rw [BitVec.ushiftRight_and_distrib, hm, and_000F_toNat, BitVec.toNat_ushiftRight, Nat.shiftRight_eq_div_pow]

/-- The mask 0x0FFF keeps the low twelve bits. -/
theorem and_0FFF_toNat (w : Word) : (w &&& 0x0FFF#16).toNat = w.toNat % 4096 := by
  rw [BitVec.toNat_and]
  exact Nat.and_two_pow_sub_one_eq_mod w.toNat 12

/-- Settles O2: masks and shifts, and fields, as arithmetic on the word's number. -/
theorem fieldsAreMaskedShiftedBits : Obligations.FieldsAreMaskedShiftedBits := by
  intro w
  rw [maskedNibble_toNat w (m := 0x0F00#16) rfl, maskedNibble_toNat w (m := 0x00F0#16) rfl,
    maskedNibble_toNat w (m := 0xF000#16) rfl, and_000F_toNat, and_00FF_toNat, and_0FFF_toNat,
    fieldOp_eq, fieldX_val, fieldY_val, fieldN_val, fieldNN_toNat, fieldNNN_toNat]
  omega

end Sys2Proof

namespace Sys2Proof.Machine

/-! ## A word on no row (R78) -/

/-- The cycle of an unrecognized word (R99, R104). -/
theorem step_unknown {s : State} {w : Word} {e : DecodeError} (hs : s.halted = false) (hf : fetch s = .ok w)
    (hd : decode w = .error e) : step s = .next (endCycle (unknownCycle w s)) := by
  simp [step, hs, hf, hd]

/-- Settles O42: a word on no row does not decode, and its cycle ticks. -/
theorem unknownOpcodeIsReported : Obligations.UnknownOpcodeIsReported := by
  intro s w hs hf hno
  cases hd : decode w with
  | ok i =>
    obtain ⟨r, hr, hw⟩ := (decode_ok_iff_exists_row w).mp ⟨i, hd⟩
    exact absurd hw (hno r hr)
  | error e =>
    have hlive : (unknownCycle w s).halted = false := hs
    refine ⟨unknownCycle w s, _, step_unknown hs hf hd, raiseError_reported rfl s, ?_⟩
    rw [endCycle_live hlive]
    exact inputsPresented_nextInputs _

end Sys2Proof.Machine
end

section
/-! PROOFS. The cycle family: the step as equations (R104), its totality (R90), fetch (R91), fatal and halted cycles (R102), the tick (R100, R101), and the outputs `status` and `draw_occurred` (R95, R97). -/

namespace Sys2Proof.Machine

/-! ## The step as equations -/

/-- The cycle whose fetch is out of range (R91, R104). -/
theorem step_fetchError {s : State} {a : Nat} (hs : s.halted = false) (hf : fetch s = .error a) :
    step s = .next (endCycle (fetchErrorCycle a s)) := by
  simp [step, hs, hf]

/-- The cycle of a recognized word (R93, R104). -/
theorem step_decoded {s u : State} {w : Word} {i : Instr} (hs : s.halted = false) (hf : fetch s = .ok w)
    (hd : decode w = .ok i) (hx : exec i s = .next u) : step s = .next (endCycle u) := by
  simp [step, hs, hf, hd, hx]

/-- What a cycle begun halted leads to (R102). -/
theorem eq_haltedCycle_of_step {s t : State} (hs : s.halted = true) (h : step s = .next t) : t = haltedCycle s := by
  cases (step_halted hs).symm.trans h
  rfl

/-! ## Totality (R90) -/

/-- A data access answers a next state when what it guards does. -/
theorem dataAccess_answers (s : State) (k : Nat) {done : Result} (h : ∃ t, done = .next t) :
    ∃ t, dataAccess s k done = .next t := by
  rcases dataAccess_cases s k done with h' | ⟨a, h'⟩ <;> rw [h']
  · exact h
  · exact ⟨_, rfl⟩

/-- A key access answers a next state when what it guards does. -/
theorem keyAccess_answers (s : State) (x : Reg) {done : Result} (h : ∃ t, done = .next t) :
    ∃ t, keyAccess s x done = .next t := by
  rcases keyAccess_cases s x done with h' | ⟨a, h'⟩ <;> rw [h']
  · exact h
  · exact ⟨_, rfl⟩

/-- Every execute phase answers a next state. The arms closed by the last case end normally on their one path. -/
theorem exec_answers (i : Instr) (s : State) : ∃ t, exec i s = .next t := by
  cases i with
  | ret =>
    simp only [exec, execRet]
    cases pop s <;> exact ⟨_, rfl⟩
  | call nnn =>
    simp only [exec, execCall]
    cases push s (s.pc + 2) <;> exact ⟨_, rfl⟩
  | ldVxK x =>
    simp only [exec, execLdVxK]
    cases leastKey s.port.keys <;> exact ⟨_, rfl⟩
  | drw x y n => exact dataAccess_answers s _ ⟨_, rfl⟩
  | ldB x => exact dataAccess_answers s _ ⟨_, rfl⟩
  | storeRegs x => exact dataAccess_answers s _ ⟨_, rfl⟩
  | loadRegs x => exact dataAccess_answers s _ ⟨_, rfl⟩
  | skp x => exact keyAccess_answers s x ⟨_, rfl⟩
  | sknp x => exact keyAccess_answers s x ⟨_, rfl⟩
  | _ => exact ⟨_, rfl⟩

/-- Every cycle answers a next state, whichever of the four kinds it is. -/
theorem step_answers (s : State) : ∃ t, step s = .next t := by
  cases hs : s.halted with
  | true => exact ⟨_, step_halted hs⟩
  | false =>
    cases hf : fetch s with
    | error a => exact ⟨_, step_fetchError hs hf⟩
    | ok w =>
      cases hd : decode w with
      | error e => exact ⟨_, step_unknown hs hf hd⟩
      | ok i =>
        obtain ⟨u, hx⟩ := exec_answers i s
        exact ⟨_, step_decoded hs hf hd hx⟩

/-- Settles O45: `exec_answers` and `step_answers`. -/
theorem everyStepAnswersANextState : Obligations.EveryStepAnswersANextState :=
  ⟨exec_answers, step_answers⟩

/-! ## The end of a cycle -/

/-- After a fatal execute phase only the inputs change (R102). -/
theorem inputsPresented_endCycle_fatal {u : State} (h : u.halted = true) : InputsPresented u (endCycle u) := by
  rw [endCycle_fatal h]
  exact inputsPresented_nextInputs u

/-- After any other execute phase the timers tick, then the inputs change (R100). -/
theorem inputsPresented_endCycle_live {u : State} (h : u.halted = false) : InputsPresented (tick u) (endCycle u) := by
  rw [endCycle_live h]
  exact inputsPresented_nextInputs (tick u)

/-- Settles O40: the equation of a recognized word's cycle, and the two ends of a cycle. -/
theorem stepRunsTheDecodedInstruction : Obligations.StepRunsTheDecodedInstruction :=
  fun _ _ _ hs hpc hd hx =>
    ⟨_, step_decoded hs (fetch_ok hpc) hd hx, inputsPresented_endCycle_fatal, inputsPresented_endCycle_live⟩

/-- Settles O41: the pair at `pc` as a number, and the equation of a fetch out of range. -/
theorem fetchIsBigEndianAndBounded : Obligations.FetchIsBigEndianAndBounded :=
  ⟨fun _ hpc => ⟨_, fetch_ok hpc, wordOfBytes_toNat _ _⟩,
    fun s hs hpc => ⟨_, _, step_fetchError hs (fetch_error hpc), raiseError_fatal .fetch s.pc.toNat s,
      inputsPresented_endCycle_fatal rfl⟩⟩

@[simp] theorem endCycle_out_status (u : State) : (endCycle u).out.status = u.out.status := by
  obtain ⟨-, hstatus, -⟩ := endCycle_out u
  exact hstatus

@[simp] theorem endCycle_out_drawOccurred (u : State) : (endCycle u).out.drawOccurred = u.out.drawOccurred := by
  obtain ⟨-, -, hdraw⟩ := endCycle_out u
  exact hdraw

/-! ## The two kinds of live cycle -/

/-- The word a cycle from `s` fetches decodes to `i`. -/
def Executes (s : State) (i : Instr) : Prop := ∃ w, fetch s = .ok w ∧ decode w = .ok i

/-- A cycle executes one instruction. -/
theorem Executes.unique {s : State} {i j : Instr} (hi : Executes s i) (hj : Executes s j) : i = j := by
  obtain ⟨w, hf, hd⟩ := hi
  obtain ⟨w', hf', hd'⟩ := hj
  cases hf.symm.trans hf'
  cases hd.symm.trans hd'
  rfl

/-- A live cycle executes no instruction and raises an error (R78, R91), or ends the execute phase of the one it executes. -/
theorem step_live_cases {s t : State} (hs : s.halted = false) (h : step s = .next t) :
    ((∀ i, ¬ Executes s i) ∧ ∃ e, t = endCycle (raiseError e s)) ∨
    ∃ i u, Executes s i ∧ exec i s = .next u ∧ t = endCycle u := by
  rcases step_cases h with ⟨hh, -⟩ | ⟨-, hpc, rfl⟩ | ⟨w, e, -, hf, hd, rfl⟩ | ⟨w, i, u, -, hf, hd, hx, rfl⟩
  · simp [hs] at hh
  · refine .inl ⟨fun i ⟨w, hf, _⟩ => ?_, _, rfl⟩
    rw [fetch_error hpc] at hf
    cases hf
  · refine .inl ⟨fun i ⟨w', hf', hd'⟩ => ?_, _, rfl⟩
    cases hf.symm.trans hf'
    cases hd.symm.trans hd'
  · exact .inr ⟨i, u, ⟨w, hf, hd⟩, hx, rfl⟩

/-! ## Fatal and halted cycles (R102) -/

/-- An error that halts a live machine is an out-of-range access. -/
theorem raiseError_fatal_of_halted {s : State} {e : Event} (hs : s.halted = false) (h : (raiseError e s).halted = true) :
    ∃ space addr, e = .addressOutOfRange space addr :=
  ((raiseError_halted_iff e s).1 h).resolve_left (by simp [hs])

/-- An execute phase that halts a live machine raised an error: the other ways of R94 keep `halted`. -/
theorem exec_raises_of_halted {i : Instr} {s u : State} (hs : s.halted = false) (h : exec i s = .next u)
    (hu : u.halted = true) : ∃ e, u = raiseError e s := by
  rcases exec_ends h with ⟨-, -, -, hh, -, -⟩ | ⟨-, rfl⟩ | ⟨-, he⟩
  · simp [hh, hs] at hu
  · simp [hs] at hu
  · exact he

/-- A live cycle that ends halted is an out-of-range access raised on its first state. -/
theorem step_fatal {s t : State} (hs : s.halted = false) (h : step s = .next t) (ht : t.halted = true) :
    ∃ space addr, t = nextInputs (raiseError (.addressOutOfRange space addr) s) := by
  have hraised : ∃ e, t = endCycle (raiseError e s) := by
    rcases step_live_cases hs h with ⟨-, he⟩ | ⟨i, u, -, hx, rfl⟩
    · exact he
    · obtain ⟨e, rfl⟩ := exec_raises_of_halted hs hx (by simpa using ht)
      exact ⟨e, rfl⟩
  obtain ⟨e, rfl⟩ := hraised
  obtain ⟨space, addr, rfl⟩ := raiseError_fatal_of_halted hs (by simpa using ht)
  exact ⟨space, addr, endCycle_fatal rfl⟩

/-- Settles O43: `step_fatal`, and the equation of a halted cycle. -/
theorem fatalAndHaltedCyclesCommitNothing : Obligations.FatalAndHaltedCyclesCommitNothing := by
  refine ⟨fun s t hs h ht => ?_, fun s hs => ⟨_, step_halted hs, inputsPresented_nextInputs _⟩⟩
  obtain ⟨space, addr, rfl⟩ := step_fatal hs h ht
  exact ⟨space, addr, _, raiseError_fatal space addr s, inputsPresented_nextInputs _⟩

/-! ## The tick (R100, R101) -/

/-- The timers and `beep` after the end of a cycle that is not fatal. -/
theorem endCycle_timers {u : State} (h : u.halted = false) :
    (endCycle u).DT.toNat = u.DT.toNat - 1 ∧ (endCycle u).ST.toNat = u.ST.toNat - 1 ∧
    ((endCycle u).out.beep = true ↔ u.ST = 1) := by
  simp [endCycle_live h, countDown_toNat]

/-- A cycle that ends halted, whether or not it began so, keeps both timers and does not beep. -/
theorem step_halted_timers {s t : State} (h : step s = .next t) (ht : t.halted = true) :
    t.DT = s.DT ∧ t.ST = s.ST ∧ t.out.beep = false := by
  cases hs : s.halted with
  | true =>
    cases eq_haltedCycle_of_step hs h
    simp [haltedCycle]
  | false =>
    obtain ⟨space, addr, rfl⟩ := step_fatal hs h ht
    simp [raiseError_fatal]

/-- Settles O44: both kinds of execute phase end in `endCycle`. -/
theorem timersTickOncePerCycle : Obligations.TimersTickOncePerCycle := by
  refine ⟨fun s u hs hcycle hu => ⟨endCycle u, ?_, endCycle_timers hu⟩, fun s t h ht => step_halted_timers h ht⟩
  rcases hcycle with ⟨w, i, hf, hd, hx⟩ | ⟨w, e, hf, hd, rfl⟩
  · exact step_decoded hs hf hd hx
  · exact step_unknown hs hf hd

/-! ## The output `status` (R95) -/

/-- An error shows status Halted exactly when it halts the machine. -/
theorem raiseError_status_halted_iff (e : Event) {s : State} (hs : s.halted = false) :
    (raiseError e s).out.status = .halted ↔ (raiseError e s).halted = true := by
  obtain ⟨-, -, -, -, hstatus⟩ := raiseError_out e s
  simp [hstatus, raiseError_halted_iff, hs]

/-- No error shows status Waiting. -/
theorem raiseError_status_ne_waiting (e : Event) (s : State) : (raiseError e s).out.status ≠ .waiting := by
  obtain ⟨-, -, -, hstatus, -⟩ := raiseError_out e s
  exact hstatus

theorem exec_status_halted_iff {i : Instr} {s u : State} (hs : s.halted = false) (h : exec i s = .next u) :
    u.out.status = .halted ↔ u.halted = true := by
  rcases exec_ends h with ⟨d, -, hout, hh, -, -⟩ | ⟨-, rfl⟩ | ⟨-, e, rfl⟩
  · simp [hout, hh, hs, quietOutputs]
  · simp [hs]
  · exact raiseError_status_halted_iff e hs

theorem exec_status_waiting_iff {i : Instr} {s u : State} (h : exec i s = .next u) :
    u.out.status = .waiting ↔ Waits i s := by
  rcases exec_ends h with ⟨d, -, hout, -, -, hw⟩ | ⟨hw, rfl⟩ | ⟨hk, e, rfl⟩
  · exact iff_of_false (by simp [hout, quietOutputs]) hw
  · exact iff_of_true rfl hw
  · exact iff_of_false (raiseError_status_ne_waiting e s) fun ⟨x, hx, _⟩ => hk x hx

/-- A live cycle shows status Halted exactly when it ends halted. -/
theorem step_status_halted_iff {s t : State} (hs : s.halted = false) (h : step s = .next t) :
    t.out.status = .halted ↔ t.halted = true := by
  rcases step_live_cases hs h with ⟨-, e, rfl⟩ | ⟨i, u, -, hx, rfl⟩
  · rw [endCycle_out_status, endCycle_halted]
    exact raiseError_status_halted_iff e hs
  · rw [endCycle_out_status, endCycle_halted]
    exact exec_status_halted_iff hs hx

/-- A live cycle shows status Waiting exactly when it executes `FX0A` with no key pressed. -/
theorem step_status_waiting_iff {s t : State} (hs : s.halted = false) (h : step s = .next t) :
    t.out.status = .waiting ↔ s.port.keys = 0 ∧ ∃ x, Executes s (.ldVxK x) := by
  rcases step_live_cases hs h with ⟨hnone, e, rfl⟩ | ⟨i, u, hi, hx, rfl⟩ <;> rw [endCycle_out_status]
  · exact iff_of_false (raiseError_status_ne_waiting e s) fun ⟨_, x, hex⟩ => hnone _ hex
  · rw [exec_status_waiting_iff hx]
    constructor
    · rintro ⟨x, rfl, hk⟩
      exact ⟨hk, x, hi⟩
    · rintro ⟨hk, x, hex⟩
      exact ⟨x, hi.unique hex, hk⟩

/-- Settles O46: the two equivalences of a live cycle; a halted cycle shows Halted. -/
theorem statusTellsHowTheCycleEnded : Obligations.StatusTellsHowTheCycleEnded := by
  intro s t h
  cases hs : s.halted with
  | true =>
    cases eq_haltedCycle_of_step hs h
    simp [haltedCycle]
  | false =>
    refine ⟨by simp [step_status_halted_iff hs h], (step_status_waiting_iff hs h).trans ?_⟩
    simp only [Executes, true_and]
    rw [exists_comm]

/-! ## The output `draw_occurred` (R97) -/

@[simp] theorem raiseError_out_drawOccurred (e : Event) (s : State) : (raiseError e s).out.drawOccurred = false := by
  obtain ⟨-, hdraw, -⟩ := raiseError_out e s
  exact hdraw

/-- A display instruction draws or halts: its one error is an out-of-range access (R53, R172). -/
theorem exec_display_cases {i : Instr} {s u : State} (hi : IsDisplay i) (h : exec i s = .next u) :
    u.out.drawOccurred = true ∨ u.halted = true := by
  rcases hi with rfl | ⟨x, y, n, rfl⟩
  · cases h
    exact .inl rfl
  · simp only [exec, execDrw] at h
    rcases dataAccess_cases s n.val _ with h' | ⟨a, h'⟩ <;> cases h'.symm.trans h
    · exact .inl rfl
    · exact .inr rfl

theorem exec_drawOccurred_iff {i : Instr} {s u : State} (hs : s.halted = false) (h : exec i s = .next u) :
    u.out.drawOccurred = true ↔ u.halted = false ∧ IsDisplay i := by
  rcases exec_ends h with ⟨d, hd, hout, hh, -, -⟩ | ⟨⟨x, rfl, -⟩, rfl⟩ | ⟨-, e, rfl⟩
  · simp [hout, hh, hs, hd]
  · simp
  · refine iff_of_false (by simp) fun ⟨hlive, hi⟩ => ?_
    have hends := exec_display_cases hi h
    simp [hlive] at hends

/-- A live cycle draws exactly when it executes a display instruction and ends live. -/
theorem step_drawOccurred_iff {s t : State} (hs : s.halted = false) (h : step s = .next t) :
    t.out.drawOccurred = true ↔ t.halted = false ∧ ∃ i, Executes s i ∧ IsDisplay i := by
  rcases step_live_cases hs h with ⟨hnone, e, rfl⟩ | ⟨i, u, hi, hx, rfl⟩ <;>
    rw [endCycle_out_drawOccurred, endCycle_halted]
  · exact iff_of_false (by simp) fun ⟨_, i, hex, _⟩ => hnone i hex
  · rw [exec_drawOccurred_iff hs hx]
    constructor
    · rintro ⟨hu, hd⟩
      exact ⟨hu, i, hi, hd⟩
    · rintro ⟨hu, j, hj, hd⟩
      exact ⟨hu, hi.unique hj ▸ hd⟩

/-- Settles O47: the equivalence of a live cycle; a halted cycle does not draw. -/
theorem drawOccurredOnlyOnDisplayInstructions : Obligations.DrawOccurredOnlyOnDisplayInstructions := by
  intro s t h
  cases hs : s.halted with
  | true =>
    cases eq_haltedCycle_of_step hs h
    simp [haltedCycle]
  | false =>
    rw [step_drawOccurred_iff hs h]
    constructor
    · rintro ⟨ht, i, ⟨w, hf, hd⟩, hi⟩
      exact ⟨rfl, ht, w, i, hf, hd, hi⟩
    · rintro ⟨-, ht, w, i, hf, hd, hi⟩
      exact ⟨ht, i, ⟨w, hf, hd⟩, hi⟩

end Sys2Proof.Machine
end

section
/-! PROOFS. The control-flow family: returns, jumps and calls (R111 to R114), skips (R115 to R118), and the bounds on `pc` and the return addresses (R24). -/

namespace Sys2Proof.Machine

/-! ## Targets as numbers -/

/-- An address immediate is zero-extended (R73). -/
@[simp] theorem addrOf_toNat (nnn : Addr12) : (addrOf nnn).toNat = nnn.toNat :=
  BitVec.toNat_setWidth_of_le (by decide)

/-- A register value is zero-extended (R11). -/
@[simp] theorem wide_toNat (b : Byte) : (wide b).toNat = b.toNat :=
  BitVec.toNat_setWidth_of_le (by decide)

/-- The sum of `BNNN` does not wrap: it is at most 0x0FFF + 0xFF (R114). -/
theorem addrOf_add_wide_toNat (nnn : Addr12) (b : Byte) : (addrOf nnn + wide b).toNat = nnn.toNat + b.toNat := by
  have := nnn.isLt
  have := b.isLt
  rw [BitVec.toNat_add, addrOf_toNat, wide_toNat]
  omega

/-! ## The bounds on targets -/

/-- Within the bounds, an instruction that was fetched moves `pc` to 0x10FE at most: by at most 4, to a return address,
to an immediate, or to the sum of R114. -/
theorem exec_pc_le {i : Instr} {s t : State} (hs : BoundedTargets s) (hpc : s.pc.toNat ≤ 4094)
    (h : exec i s = .next t) : t.pc.toNat ≤ 0x10FE := by
  obtain ⟨-, hstack⟩ := hs
  have hadvance : (s.pc + 2).toNat ≤ 0x10FE := by bv_omega
  rcases (exec_writesWithin h).pc with ht | ht | ht | rfl | ⟨nnn, rfl⟩ | ⟨nnn, rfl⟩ | ⟨nnn, rfl⟩
  · rw [ht]
    omega
  · rwa [ht]
  · rw [ht]
    bv_omega
  · rcases exec_ret_cases h with ⟨-, rfl⟩ | rfl
    · exact (hstack _ (by omega)).trans (by decide)
    · exact hadvance
  · cases h
    simp only [latch_pc, setPc_pc, addrOf_toNat]
    omega
  · rcases exec_call_cases h with ⟨-, rfl⟩ | rfl
    · simp only [latch_pc, addrOf_toNat]
      omega
    · exact hadvance
  · cases h
    simp only [latch_pc, setPc_pc, addrOf_add_wide_toNat]
    omega

/-- The one word an instruction can push is the address behind it, at most 4096 when the instruction was fetched (R113). -/
theorem exec_stack_le {i : Instr} {s t : State} (hs : BoundedTargets s) (hpc : s.pc.toNat ≤ 4094)
    (h : exec i s = .next t) : ∀ (k : Nat) (hk : k < 16), t.stack[k].toNat ≤ 0x1000 := by
  obtain ⟨-, hstack⟩ := hs
  rcases (exec_writesWithin h).stack with ht | ⟨nnn, rfl⟩
  · rwa [ht]
  · rcases exec_call_cases h with ⟨hsp, rfl⟩ | rfl
    · intro k hk
      simp only [latch_stack, Vector.getElem_set]
      split
      · bv_omega
      · exact hstack k hk
    · exact hstack

/-- The end of a cycle writes neither `pc` nor the stack. -/
@[simp] theorem boundedTargets_endCycle (u : State) : BoundedTargets (endCycle u) ↔ BoundedTargets u := by
  simp [BoundedTargets]

/-- Settles O56: only a cycle that fetched, so with `pc` at most 4094, moves `pc` or writes the stack. -/
theorem stepKeepsTargetsBounded : Obligations.StepKeepsTargetsBounded := by
  intro s t hs h
  rcases step_cases h with ⟨-, rfl⟩ | ⟨-, -, rfl⟩ | ⟨w, e, -, hf, -, rfl⟩ | ⟨w, i, u, -, hf, -, hx, rfl⟩
  · simpa [haltedCycle, BoundedTargets] using hs
  · exact (boundedTargets_endCycle _).2 hs
  · obtain ⟨hpc, -⟩ := (fetch_ok_iff s w).1 hf
    have hadvance : (s.pc + 2).toNat ≤ 0x10FE := by bv_omega
    obtain ⟨-, hstack⟩ := hs
    exact (boundedTargets_endCycle _).2 ⟨hadvance, hstack⟩
  · obtain ⟨hpc, -⟩ := (fetch_ok_iff s w).1 hf
    exact (boundedTargets_endCycle u).2 ⟨exec_pc_le hs hpc hx, exec_stack_le hs hpc hx⟩

/-! ## Return and call -/

/-- `00EE` with an occupied slot (R111). -/
theorem exec_ret_occupied {s : State} (h : 0 < s.sp.val) :
    exec .ret s = .next (latch { s with sp := ⟨s.sp.val - 1, by omega⟩, pc := s.stack[s.sp.val - 1] } .completed none false) := by
  simp only [exec, execRet, pop_some h]
  rfl

/-- `00EE` on an empty stack (R205). -/
theorem exec_ret_empty {s : State} (h : s.sp.val = 0) : exec .ret s = .next (raiseError (.stackUnderflow s.pc) s) := by
  simp only [exec, execRet, pop_empty h]
  rfl

/-- `2NNN` with room (R113). -/
theorem exec_call_room {s : State} (nnn : Addr12) (h : s.sp.val < 16) :
    exec (.call nnn) s = .next (latch { s with stack := s.stack.set s.sp.val (s.pc + 2) h, sp := ⟨s.sp.val + 1, by omega⟩,
                                               pc := addrOf nnn } .completed none false) := by
  simp only [exec, execCall, push_room _ h]
  rfl

/-- `2NNN` on a full stack (R204). -/
theorem exec_call_full {s : State} (nnn : Addr12) (h : s.sp.val = 16) :
    exec (.call nnn) s = .next (raiseError (.stackOverflow s.pc) s) := by
  simp only [exec, execCall, push_full _ h]
  rfl

/-- Settles O8: the two equations of `00EE`, and its word alone on its row. -/
theorem returnPopsTheStack : Obligations.ReturnPopsTheStack := by
  refine ⟨fun w hw => decode_of_onRow .ret hw, fun s hs => ?_, fun s hs => ?_⟩
  · refine ⟨_, exec_ret_occupied hs, ?_, rfl, rfl, rfl, rfl, fun _ => rfl⟩
    exact Vector.getElem?_eq_getElem (by omega)
  · exact ⟨_, exec_ret_empty hs, raiseError_reported rfl s⟩

/-- Settles O10: the two equations of `2NNN`; a push writes slot `sp` and no other. -/
theorem callPushesReturnAddress : Obligations.CallPushesReturnAddress := by
  refine ⟨fun w hw => decode_of_onRow (.call 0) hw, fun nnn s hs => ?_, fun nnn s hs => ?_⟩
  · refine ⟨_, exec_call_room nnn hs, ?_, fun i hi => ?_, rfl, addrOf_toNat nnn, rfl, rfl, fun _ => rfl⟩
    · exact Vector.getElem?_set_self hs
    · exact Vector.getElem?_set_ne hs hi.symm
  · exact ⟨_, exec_call_full nnn hs, raiseError_reported rfl s⟩

/-- Settles O14: the slot the call filled is the one the return reads. -/
theorem callThenReturnComesBack : Obligations.CallThenReturnComesBack := by
  intro nnn s hs
  refine ⟨_, exec_call_room nnn hs, fun u hstack hsp => ?_⟩
  have hocc : 0 < u.sp.val := by simp [hsp]
  exact ⟨_, exec_ret_occupied hocc, by simp [hstack, hsp], by simp [hsp]⟩

/-! ## Jumps and skips -/

/-- An execute phase that does nothing but set `pc`. -/
theorem normal_setPc (s : State) (p : Word) :
    ∃ t, normal (setPc s p) = .next t ∧ t.pc = p ∧ t.out = quietOutputs ∧ FramePc s t :=
  ⟨_, rfl, rfl, rfl, rfl, fun _ => rfl⟩

/-- Settles O9: `1NNN` does nothing but set `pc`. -/
theorem jumpSetsPc : Obligations.JumpSetsPc := by
  refine ⟨fun w hw => decode_of_onRow (.jp 0) hw, fun nnn s => ?_⟩
  obtain ⟨t, ht, hpc, hrest⟩ := normal_setPc s (addrOf nnn)
  exact ⟨t, ht, by rw [hpc, addrOf_toNat], hrest⟩

/-- Settles O11: `BNNN` does nothing but set `pc`, to a sum that does not wrap. -/
theorem jumpWithOffsetAddsVZero : Obligations.JumpWithOffsetAddsVZero := by
  refine ⟨fun w hw => decode_of_onRow (.jpV0 0) hw, fun nnn s => ?_⟩
  obtain ⟨t, ht, hpc, hrest⟩ := normal_setPc s (addrOf nnn + wide s.V[0])
  exact ⟨t, ht, by rw [hpc, addrOf_add_wide_toNat], hrest⟩

/-- A skip whose test holds under `P` and fails under `Q` (R24, R115). -/
theorem normal_skipIf {P Q : Prop} {c : Bool} (s : State) (hP : P → c = true) (hQ : Q → c = false) :
    ∃ t, normal (skipIf c s) = .next t ∧ (P → t.pc = s.pc + 4) ∧ (Q → t.pc = s.pc + 2) ∧ t.out = quietOutputs ∧ FramePc s t := by
  obtain ⟨t, ht, hpc, hrest⟩ := normal_setPc s (if c then s.pc + 4 else s.pc + 2)
  exact ⟨t, ht, fun h => by simp [hpc, hP h], fun h => by simp [hpc, hQ h], hrest⟩

/-- Settles O12: each instruction is one skip, whose test compares a register with the immediate. -/
theorem skipOnImmediate : Obligations.SkipOnImmediate :=
  ⟨fun _ hw => decode_of_onRow (.seImm 0 0) hw, fun _ hw => decode_of_onRow (.sneImm 0 0) hw,
    fun _ _ s => normal_skipIf s (by simp) (by simp), fun _ _ s => normal_skipIf s (by simp) (by simp)⟩

/-- A word of family 5 or 9 with its low nibble not 0 is unrecognized (R74). -/
theorem decode_unrecognized_of_lowNibble {w : Word} (hop : w.toNat / 4096 = 5 ∨ w.toNat / 4096 = 9) (hn : w.toNat % 16 ≠ 0) :
    decode w = .error (.unrecognized w) := by
  rcases hop with h | h <;> simp [decode, fieldOp_eq, h, hn]

/-- Settles O13: each instruction is one skip, whose test compares two registers; another low nibble is on no row. -/
theorem skipOnRegisters : Obligations.SkipOnRegisters := by
  refine ⟨fun w hw => decode_of_onRow (.seReg 0 0) hw, fun w hw => decode_of_onRow (.sneReg 0 0) hw, fun w hop hn => ?_,
    fun x y s => normal_skipIf s (by simp) (by simp), fun x y s => normal_skipIf s (by simp) (by simp)⟩
  have hkey : w.toNat / 4096 = 5 ∨ w.toNat / 4096 = 9 := by simpa [key_F000_iff] using hop
  rw [Ne, ← BitVec.toNat_inj, and_000F_toNat] at hn
  exact decode_unrecognized_of_lowNibble hkey hn

end Sys2Proof.Machine
end

section
/-! PROOFS. The arithmetic family: register loads and logic (R131 to R136), sums, differences and shifts with their flag (R137 to R141), and the masked random byte (R142). -/

namespace Sys2Proof.Machine

/-! ## The two shapes of an execute phase -/

/-- An execute phase that writes one register. -/
theorem normal_writeV (s : State) (x : Reg) (r : Byte) :
    ∃ t, normal (advance (writeV s x r)) = .next t ∧ (∀ j : Reg, t.V[j] = if j = x then r else s.V[j]) ∧
      t.pc = s.pc + 2 ∧ t.out = quietOutputs ∧ FrameV s t :=
  ⟨_, rfl, by simp [Fin.ext_iff], rfl, rfl, rfl, fun _ => rfl⟩

/-- The same phase, by a property `P` of the byte written. -/
theorem normal_writeV_of {P : Byte → Prop} {s : State} {x : Reg} {r : Byte} (hr : P r) :
    ∃ t, normal (advance (writeV s x r)) = .next t ∧ P t.V[x] ∧ (∀ j : Reg, j ≠ x → t.V[j] = s.V[j]) ∧
      t.pc = s.pc + 2 ∧ t.out = quietOutputs ∧ FrameV s t := by
  obtain ⟨t, ht, hV, hrest⟩ := normal_writeV s x r
  exact ⟨t, ht, by rwa [hV, if_pos rfl], fun j hj => by rw [hV, if_neg hj], hrest⟩

/-- An execute phase that writes the flag, then its result, by a property `P` of the result and one `F` of the flag.
At `x = 0xF` the result is written last and survives (R12, R130). -/
theorem normal_writeFlagThen_of {P F : Byte → Prop} {s : State} {f : Bool} {x : Reg} {r : Byte}
    (hr : P r) (hf : F (flagByte f)) :
    ∃ t, normal (advance (writeFlagThen s f x r)) = .next t ∧ P t.V[x] ∧ (x ≠ 15 → F t.V[15]) ∧
      (∀ j : Reg, j ≠ x → j ≠ 15 → t.V[j] = s.V[j]) ∧ t.pc = s.pc + 2 ∧ t.out = quietOutputs ∧ FrameV s t := by
  refine ⟨_, rfl, by simpa, fun hx => ?_, fun j hj hF => ?_, rfl, rfl, rfl, fun _ => rfl⟩
  · have hx' : 15 ≠ x.val := fun h => hx (Fin.ext h.symm)
    simpa [hx'] using hf
  · have hj' : j.val ≠ x.val := fun h => hj (Fin.ext h)
    have hF' : j.val ≠ 15 := fun h => hF (Fin.ext h)
    simp [hj', hF']

/-! ## Flags and differences as numbers -/

/-- The flag as a number, from what it decides (R22). -/
theorem flagByte_toNat_of_iff {f : Bool} {p : Prop} [Decidable p] (h : f = true ↔ p) :
    (flagByte f).toNat = if p then 1 else 0 := by
  cases f <;> simp [← h]

theorem carryOut_toNat (a b : Byte) : (flagByte (carryOut a b)).toNat = if a.toNat + b.toNat > 255 then 1 else 0 :=
  flagByte_toNat_of_iff (carryOut_iff a b)

/-- Not borrow is 0 exactly when the minuend is the smaller one (R138, R140). -/
theorem noBorrow_toNat (a b : Byte) : (flagByte (noBorrow a b)).toNat = if a.toNat < b.toNat then 0 else 1 := by
  rw [flagByte_toNat_of_iff (noBorrow_iff a b), ← ite_not]
  simp only [Nat.not_le]

theorem shiftedOutRight_toNat (a : Byte) : (flagByte (shiftedOutRight a)).toNat = a.toNat % 2 := by
  rw [shiftedOutRight_eq, flagByte_toNat_of_iff decide_eq_true_iff]
  split <;> omega

theorem shiftedOutLeft_toNat (a : Byte) : (flagByte (shiftedOutLeft a)).toNat = a.toNat / 128 := by
  have := a.isLt
  rw [shiftedOutLeft_eq, flagByte_toNat_of_iff decide_eq_true_iff]
  split <;> omega

/-- A difference of bytes is the exact difference modulo 256 (R138, R140). -/
theorem byte_sub_toNat (a b : Byte) : ((a - b).toNat : Int) = ((a.toNat : Int) - b.toNat) % 256 := by
  have := b.isLt
  rw [BitVec.toNat_sub]
  omega

/-! ## Register loads, logic and the random byte: one register written -/

/-- Settles O15: `6XNN` writes its immediate. -/
theorem loadImmediateSetsRegister : Obligations.LoadImmediateSetsRegister :=
  ⟨fun _ hw => decode_of_onRow (.ldImm 0 0) hw, fun x nn s => normal_writeV s x nn⟩

/-- Settles O16: `7XNN` writes a sum of bytes, and no flag. -/
theorem addImmediateWrapsWithoutFlag : Obligations.AddImmediateWrapsWithoutFlag :=
  ⟨fun _ hw => decode_of_onRow (.addImm 0 0) hw,
    fun x nn s => normal_writeV_of (P := fun r => r.toNat = (s.V[x].toNat + nn.toNat) % 256) (BitVec.toNat_add ..)⟩

/-- Settles O17: `8XY0` writes the value of the other register. -/
theorem copyRegister : Obligations.CopyRegister :=
  ⟨fun _ hw => decode_of_onRow (.ldReg 0 0) hw, fun x y s => normal_writeV s x s.V[y]⟩

/-- Settles O18: each of the three writes one register, so `V[0xF]` is kept unless it is the destination. -/
theorem bitwiseLogicWithoutFlag : Obligations.BitwiseLogicWithoutFlag := by
  refine ⟨fun _ hw => decode_of_onRow (.orReg 0 0) hw, fun _ hw => decode_of_onRow (.andReg 0 0) hw,
    fun _ hw => decode_of_onRow (.xorReg 0 0) hw, fun x y s => ⟨?_, ?_, ?_⟩⟩
  · exact normal_writeV_of (P := fun r => ∀ k, r.getLsbD k = (s.V[x].getLsbD k || s.V[y].getLsbD k)) fun _ => BitVec.getLsbD_or
  · exact normal_writeV_of (P := fun r => ∀ k, r.getLsbD k = (s.V[x].getLsbD k && s.V[y].getLsbD k)) fun _ => BitVec.getLsbD_and
  · exact normal_writeV_of (P := fun r => ∀ k, r.getLsbD k = (s.V[x].getLsbD k ^^ s.V[y].getLsbD k)) fun _ => BitVec.getLsbD_xor

/-- Settles O24: `CXNN` writes the cycle's own `rnd`, masked. -/
theorem randomIsMaskedInput : Obligations.RandomIsMaskedInput :=
  ⟨fun _ hw => decode_of_onRow (.rnd 0 0) hw,
    fun _ nn s => normal_writeV_of (P := fun r => ∀ k, r.getLsbD k = (s.port.rnd.getLsbD k && nn.getLsbD k)) fun _ => BitVec.getLsbD_and⟩

/-! ## Sums, differences and shifts: the flag written, then the result -/

/-- Settles O19: the sum of the old values, and its carry. -/
theorem addRegistersSetsCarry : Obligations.AddRegistersSetsCarry :=
  ⟨fun _ hw => decode_of_onRow (.addReg 0 0) hw, fun x y s => normal_writeFlagThen_of
    (P := fun r => r.toNat = (s.V[x].toNat + s.V[y].toNat) % 256)
    (F := fun v => v.toNat = if s.V[x].toNat + s.V[y].toNat > 255 then 1 else 0)
    (BitVec.toNat_add ..) (carryOut_toNat ..)⟩

/-- Settles O20: the difference of the old values, and its not-borrow. -/
theorem subtractRegistersSetsNoBorrow : Obligations.SubtractRegistersSetsNoBorrow :=
  ⟨fun _ hw => decode_of_onRow (.subReg 0 0) hw, fun x y s => normal_writeFlagThen_of
    (P := fun r => (r.toNat : Int) = ((s.V[x].toNat : Int) - s.V[y].toNat) % 256)
    (F := fun v => v.toNat = if s.V[x].toNat < s.V[y].toNat then 0 else 1)
    (byte_sub_toNat ..) (noBorrow_toNat ..)⟩

/-- Settles O21: the old value halved, and its bit 0; `y` is not looked at. -/
theorem shiftRightKeepsBitOut : Obligations.ShiftRightKeepsBitOut :=
  ⟨fun _ hw => decode_of_onRow (.shr 0 0) hw, fun x _ s => normal_writeFlagThen_of
    (P := fun r => r.toNat = s.V[x].toNat / 2) (F := fun v => v.toNat = s.V[x].toNat % 2)
    (by simp [Nat.shiftRight_eq_div_pow]) (shiftedOutRight_toNat _)⟩

/-- Settles O22: the difference the other way round, and its not-borrow. -/
theorem reverseSubtractSetsNoBorrow : Obligations.ReverseSubtractSetsNoBorrow :=
  ⟨fun _ hw => decode_of_onRow (.subnReg 0 0) hw, fun x y s => normal_writeFlagThen_of
    (P := fun r => (r.toNat : Int) = ((s.V[y].toNat : Int) - s.V[x].toNat) % 256)
    (F := fun v => v.toNat = if s.V[y].toNat < s.V[x].toNat then 0 else 1)
    (byte_sub_toNat ..) (noBorrow_toNat ..)⟩

/-- Settles O23: the old value doubled, and its bit 7; `y` is not looked at. -/
theorem shiftLeftKeepsBitOut : Obligations.ShiftLeftKeepsBitOut :=
  ⟨fun _ hw => decode_of_onRow (.shl 0 0) hw, fun x _ s => normal_writeFlagThen_of
    (P := fun r => r.toNat = s.V[x].toNat * 2 % 256) (F := fun v => v.toNat = s.V[x].toNat / 128)
    (by simp [Nat.shiftLeft_eq]) (shiftedOutLeft_toNat _)⟩

end Sys2Proof.Machine
end

section
/-! PROOFS. The index and memory family: writes of `I` (R151 to R153), and the data accesses that store digits and move a register block (R53, R154 to R156). -/

namespace Sys2Proof.Machine

/-! ## Writes of the index register -/

/-- An execute phase that writes `I`, by the number `n` written. -/
theorem normal_setI_of {s : State} {w : Word} {n : Nat} (hw : w.toNat = n) :
    ∃ t, normal (advance (setI s w)) = .next t ∧ t.I.toNat = n ∧ t.pc = s.pc + 2 ∧ t.out = quietOutputs ∧ FrameI s t :=
  ⟨_, rfl, hw, rfl, rfl, rfl, fun _ => rfl⟩

/-- The sum of `FX1E`, modulo 65536 (R152). -/
theorem add_wide_toNat (w : Word) (b : Byte) : (w + wide b).toNat = (w.toNat + b.toNat) % 65536 := by
  rw [BitVec.toNat_add, wide_toNat]

/-- A glyph address does not wrap: it is at most 5 * 0xFF (R153). -/
theorem glyphAddr_toNat (b : Byte) : (glyphAddr b).toNat = b.toNat * 5 := by
  have := b.isLt
  simp only [glyphAddr, Config.fontBase, Config.glyphBytes, BitVec.toNat_add, BitVec.toNat_mul, BitVec.toNat_ofNat, wide_toNat]
  omega

/-- Settles O25: `ANNN` writes its zero-extended immediate. -/
theorem loadIndexZeroExtends : Obligations.LoadIndexZeroExtends :=
  ⟨fun _ hw => decode_of_onRow (.ldI 0) hw, fun nnn _ => normal_setI_of (addrOf_toNat nnn)⟩

/-- Settles O26: `FX1E` writes a 16-bit sum, and no flag. -/
theorem addToIndexWrapsAtSixteenBits : Obligations.AddToIndexWrapsAtSixteenBits :=
  ⟨fun _ hw => decode_of_onRow (.addI 0) hw, fun x s => normal_setI_of (add_wide_toNat s.I s.V[x])⟩

/-- Settles O27: `FX29` writes the glyph address of the whole byte. -/
theorem glyphAddressIsFiveTimesTheByte : Obligations.GlyphAddressIsFiveTimesTheByte :=
  ⟨fun _ hw => decode_of_onRow (.ldF 0) hw, fun x s => normal_setI_of (glyphAddr_toNat s.V[x])⟩

/-! ## Data accesses -/

/-- An access whose last byte lies past memory is fatal, whatever the instruction would have done (R53, R203). -/
theorem dataAccess_fatal {s : State} {k : Nat} (done : Result) (h : s.I.toNat + k > 4095) :
    ∃ t, dataAccess s (k + 1) done = .next t ∧ FatalBy .data (max s.I.toNat 4096) s t :=
  ⟨_, dataAccess_outOfRange done k.succ_pos (by omega), raiseError_fatal ..⟩

/-- A store in range: each byte is read back at its place, every other address reads as before, and nothing but memory changes. -/
theorem dataAccess_storeBytes {s : State} {k : Nat} {l : List Byte} (hm : s.mem.wf = true) (hl : l.length = k)
    (hI : s.I.toNat + k ≤ 4096) :
    ∃ t, dataAccess s k (normal (advance (storeBytes s (effAddr s 0) l))) = .next t ∧
      (∀ i (hi : i < l.length), memRead t.mem (s.I.toNat + i) = l[i]) ∧
      (∀ b, effAddr s 0 = b → ∀ a, a < b ∨ b + k ≤ a → memRead t.mem a = memRead s.mem a) ∧
      t.pc = s.pc + 2 ∧ t.out = quietOutputs ∧ FrameMem s t := by
  subst hl
  refine ⟨_, dataAccess_inRange _ (.inr hI), fun i hi => ?_, ?_, rfl, rfl, rfl⟩
  · exact memRead_memWriteList_inside l hm hi hI
  · rintro _ rfl a ha
    exact memRead_memWriteList_outside l hm ha

/-! ## Decimal digits -/

/-- Each of the digits fits its byte (R154). -/
theorem bcdDigits_toNat (b : Byte) :
    (bcdDigits b)[0].toNat = b.toNat / 100 ∧ (bcdDigits b)[1].toNat = b.toNat / 10 % 10 ∧
      (bcdDigits b)[2].toNat = b.toNat % 10 := by
  have := b.isLt
  simp only [bcdDigits, List.getElem_cons_zero, List.getElem_cons_succ, BitVec.toNat_ofNat]
  omega

/-- Settles O28: a checked store of the three digits. -/
theorem storeBcdDigits : Obligations.StoreBcdDigits := by
  refine ⟨fun w hw => decode_of_onRow (.ldB 0) hw, fun x s hm hI => ?_, fun x s hI => dataAccess_fatal _ hI⟩
  obtain ⟨t, ht, hread, hrest⟩ := dataAccess_storeBytes hm (bcdDigits_length s.V[x]) (by omega)
  have hdigit := fun i hi => congrArg BitVec.toNat (hread i hi)
  obtain ⟨hhundreds, htens, hones⟩ := bcdDigits_toNat s.V[x]
  exact ⟨t, ht, (hdigit 0 (by simp)).trans hhundreds, (hdigit 1 (by simp)).trans htens, (hdigit 2 (by simp)).trans hones, hrest⟩

/-! ## The register block -/

/-- Settles O29: a checked store of the block, whose `i`-th byte is `V[i]`. -/
theorem storeRegisterBlock : Obligations.StoreRegisterBlock := by
  refine ⟨fun w hw => decode_of_onRow (.storeRegs 0) hw, fun x s hm hI => ?_, fun x s hI => dataAccess_fatal _ hI⟩
  obtain ⟨t, ht, hread, hrest⟩ := dataAccess_storeBytes hm (regBlock_length s x) (by omega)
  refine ⟨t, ht, fun i hi => ?_, hrest⟩
  have hlen : i.val < (regBlock s x).length := by rw [regBlock_length]; exact Nat.lt_succ_of_le hi
  exact (hread i hlen).trans (regBlock_get s x i hlen)

/-- Settles O30: a checked load, which takes the registers up to `x` from memory. -/
theorem loadRegisterBlock : Obligations.LoadRegisterBlock := by
  refine ⟨fun w hw => decode_of_onRow (.loadRegs 0) hw, fun x s hI => ?_, fun x s hI => dataAccess_fatal _ hI⟩
  refine ⟨_, dataAccess_inRange _ (.inr (by omega)), fun i => ?_, rfl, rfl, rfl, fun _ => rfl⟩
  have hblock : i.val < x.val + 1 ↔ i ≤ x := Nat.lt_succ_iff
  exact (loadInto_get s.mem s.I.toNat (x.val + 1) x.isLt s.V i i.isLt).trans (if_congr hblock rfl rfl)

end Sys2Proof.Machine
end

section
/-! PROOFS. The display family: the clear (R171), the sprite as the set of pixels its bits land on (R172), drawing it once and twice (R174), and the linear wrap (R173). -/

namespace Sys2Proof.Machine

/-! ## Clear -/

/-- Settles O31: the execute phase writes the clear display and `pc`, and asserts `draw_occurred`. -/
theorem clearDisplayZeroesEveryPixel : Obligations.ClearDisplayZeroesEveryPixel :=
  ⟨fun _ hw => decode_of_onRow .cls hw,
    fun _ => ⟨_, rfl, fun p _ => pixelOf_clear p, rfl, rfl, rfl, rfl, fun _ => rfl⟩⟩

/-! ## The linear wrap -/

/-- Settles O34: a row is 64 pixels, and the 2048 pixels are 32 rows of them. -/
theorem spriteWrapIsLinear : Obligations.SpriteWrapIsLinear := by
  intro cx cy row col
  simp only [pixelIndex, Config.numPixels, Config.dispWidth, Config.dispHeight]
  omega

/-! ## The pixels a sprite hits -/

/-- The set bits of `n` rows read from memory, by the address of the row. -/
theorem rowBit_memReadList (m : Memory) (a n r col : Nat) :
    rowBit (memReadList m a n) 0 r col ↔ r < n ∧ spriteBit (memRead m (a + r)) col = true := by
  simp [rowBit, memReadList_get]

/-- A hit is a set bit of the rows the draw reads, at the pixel index the draw toggles. -/
theorem hits_iff (s : State) (x y : Reg) (n p : Nat) :
    Hits s x y n p ↔ ∃ r col, rowBit (memReadList s.mem (effAddr s 0) n) 0 r col ∧ col < 8 ∧
      pixelIndex s.V[x].toNat s.V[y].toNat r col = p := by
  refine exists_congr fun r => exists_congr fun col => ?_
  rw [rowBit_memReadList]
  constructor
  · rintro ⟨hr, hcol, hbit, hp⟩
    exact ⟨⟨hr, hbit⟩, hcol, hp⟩
  · rintro ⟨⟨hr, hbit⟩, hcol, hp⟩
    exact ⟨hr, hcol, hbit, hp⟩

/-- Hits are fixed by memory, `I` and the two coordinates. -/
theorem hits_congr {s u : State} {x y : Reg} (hmem : u.mem = s.mem) (hI : u.I = s.I) (hx : u.V[x] = s.V[x])
    (hy : u.V[y] = s.V[y]) (n p : Nat) : Hits u x y n p ↔ Hits s x y n p := by
  rw [Hits, Hits, hmem, hI, hx, hy]

/-! ## Draw -/

/-- The display and the collision a draw leaves: the model's rows plotted over the old display (R172). -/
def spriteDrawn (s : State) (x y : Reg) (n : Nat) : Canvas :=
  plotRows (memReadList s.mem (effAddr s 0) n) s.V[x].toNat s.V[y].toNat 0 { display := s.display, collision := false }

/-- A sprite has at most 15 rows, the height `plotRows_spec` allows. -/
theorem rows_le_fifteen (m : Memory) (a : Nat) (n : Height) : 0 + (memReadList m a n.val).length ≤ 15 := by
  rw [memReadList_length]
  omega

/-- A draw flips the pixels the sprite hits and leaves the others alone (R172). -/
theorem pixelOf_spriteDrawn (s : State) (x y : Reg) (n : Height) (p : Nat) :
    pixelOf (spriteDrawn s x y n.val).display p = true ↔ ¬ (pixel s p = true ↔ Hits s x y n.val p) := by
  rw [hits_iff]
  exact (plotRows_spec _ _ _ 0 (rows_le_fifteen ..) _).1 p

/-- A draw collides when the sprite hits a lit pixel (R172, R174). -/
theorem spriteDrawn_collision (s : State) (x y : Reg) (n : Height) :
    (spriteDrawn s x y n.val).collision = true ↔ ∃ p, Hits s x y n.val p ∧ pixel s p = true := by
  simp only [hits_iff]
  refine (plotRows_spec _ _ _ 0 (rows_le_fifteen ..) _).2.trans ?_
  constructor
  · rintro (h | ⟨r, col, hbit, hcol, hlit⟩)
    · exact absurd h Bool.false_ne_true
    · exact ⟨_, ⟨r, col, hbit, hcol, rfl⟩, hlit⟩
  · rintro ⟨_, ⟨r, col, hbit, hcol, rfl⟩, hlit⟩
    exact .inr ⟨r, col, hbit, hcol, hlit⟩

/-- The flag byte is 1 exactly when the flag is set (R22). -/
theorem flagByte_eq_one_iff (f : Bool) : flagByte f = 1 ↔ f = true := by
  cases f <;> simp

/-- `DXYN` in range (R172). -/
theorem exec_drw_inRange {x y : Reg} {n : Height} {s : State} (h : n.val = 0 ∨ s.I.toNat + n.val - 1 ≤ 4095) :
    exec (.drw x y n) s =
      .next (latch (advance (writeFlag { s with display := (spriteDrawn s x y n.val).display }
        (spriteDrawn s x y n.val).collision)) .completed none true) :=
  dataAccess_inRange _ (by omega)

/-- What a draw in range does to pixels, flag and registers, and its frame (R172). -/
theorem exec_drw_spec {x y : Reg} {n : Height} {s : State} (h : n.val = 0 ∨ s.I.toNat + n.val - 1 ≤ 4095) :
    ∃ t, exec (.drw x y n) s = .next t ∧
      (∀ p, pixel t p = true ↔ ¬ (pixel s p = true ↔ Hits s x y n.val p)) ∧
      t.V[15] = flagByte (spriteDrawn s x y n.val).collision ∧
      (∀ j : Reg, j ≠ 15 → t.V[j] = s.V[j]) ∧ t.pc = s.pc + 2 ∧
      t.out = { quietOutputs with drawOccurred := true } ∧ FrameDraw s t := by
  refine ⟨_, exec_drw_inRange h, pixelOf_spriteDrawn s x y n, by simp, fun j hj => ?_, rfl, rfl, rfl, fun _ => rfl⟩
  have hj' : j.val ≠ 15 := fun h => hj (Fin.ext h)
  simp [hj']

/-- Settles O32: a draw in range by what it does to pixels, flag and registers; out of range the access is fatal. -/
theorem drawXorsTheSprite : Obligations.DrawXorsTheSprite := by
  refine ⟨fun w hw => decode_of_onRow (.drw 0 0 0) hw, fun x y n s h => ?_, fun x y n s hn h => ?_⟩
  · obtain ⟨t, ht, hpixel, hflag, hrest⟩ := exec_drw_spec h
    have hcollision := spriteDrawn_collision s x y n
    refine ⟨t, ht, fun p _ => hpixel p, fun hhit => ?_, fun hmiss => ?_, hrest⟩
    · rw [hflag, hcollision.2 hhit, flagByte_true]
    · rw [hflag, Bool.eq_false_iff.2 (mt hcollision.1 hmiss), flagByte_false]
  · exact ⟨_, dataAccess_outOfRange _ hn (by omega), raiseError_fatal ..⟩

/-- Flipping a pixel twice by the same hit restores it (R174). -/
theorem flip_self {A B : Prop} : ¬ (¬ (A ↔ B) ↔ B) ↔ A := by tauto

/-- Settles O33: the second draw hits the same pixels, so it flips each of them back, and the hit pixels it finds lit are those
that were dark before the first. -/
theorem drawingTwiceRestoresTheDisplay : Obligations.DrawingTwiceRestoresTheDisplay := by
  intro x y n s h
  obtain ⟨t, ht, hfirst, -⟩ := exec_drw_spec (x := x) (y := y) h
  refine ⟨t, ht, fun u hdisplay hmem hI hx hy => ?_⟩
  have hhits : ∀ p, Hits u x y n.val p ↔ Hits s x y n.val p := hits_congr hmem hI hx hy n.val
  have hlit : ∀ p, pixel u p = true ↔ ¬ (pixel s p = true ↔ Hits s x y n.val p) := by
    intro p
    rw [pixel, hdisplay]
    exact hfirst p
  obtain ⟨v, hv, hsecond, hflag, -⟩ := exec_drw_spec (x := x) (y := y) (s := u) (hI ▸ h)
  refine ⟨v, hv, fun p _ => ?_, ?_⟩
  · rw [Bool.eq_iff_iff, hsecond, hlit, hhits]
    exact flip_self
  · rw [hflag, flagByte_eq_one_iff, spriteDrawn_collision]
    refine exists_congr fun p => ?_
    rw [hhits, hlit]
    refine and_congr_right fun hp => ?_
    simp [hp]

end Sys2Proof.Machine
end

section
/-! PROOFS. The keypad and timer family: skips on a key (R181, R182, R187), the poll for a key (R183), and the transfers between
registers and timers (R184 to R186) with the tick of the same cycle (R100, R101, R103). -/

namespace Sys2Proof.Machine

/-! ## Keys -/

/-- A skip on a key in range, its test read as a proposition `p` (R181, R182). -/
theorem keyAccess_skipIf {p : Prop} [Decidable p] {s : State} {x : Reg} {c : Bool} (hx : s.V[x].toNat ≤ 15)
    (hc : c = true ↔ p) :
    ∃ t, keyAccess s x (normal (skipIf c s)) = .next t ∧ t.pc = (if p then s.pc + 4 else s.pc + 2) ∧
      t.out = quietOutputs ∧ FramePc s t := by
  obtain ⟨t, ht, hpc, hrest⟩ := normal_setPc s (if c then s.pc + 4 else s.pc + 2)
  exact ⟨t, (keyAccess_inRange _ hx).trans ht, by simp only [hpc, hc], hrest⟩

/-- A key operand above 15 is fatal, whatever the instruction (R187). -/
theorem keyAccess_fatal {s : State} {x : Reg} (done : Result) (hx : s.V[x].toNat > 15) :
    ∃ t, keyAccess s x done = .next t ∧ FatalBy .key s.V[x].toNat s t :=
  ⟨_, keyAccess_outOfRange done hx, raiseError_fatal ..⟩

/-- Settles O35: each instruction is a skip behind a key access, which is fatal above 15. -/
theorem keySkips : Obligations.KeySkips :=
  ⟨fun _ hw => decode_of_onRow (.skp 0) hw, fun _ hw => decode_of_onRow (.sknp 0) hw,
    fun _ _ hx => keyAccess_skipIf hx Iff.rfl, fun _ _ hx => keyAccess_skipIf hx (by simp [keyPressed]),
    fun _ _ hx => ⟨keyAccess_fatal _ hx, keyAccess_fatal _ hx⟩⟩

/-- With a key down the poll finds one (R183). -/
theorem exists_leastKey_eq_some {keys : BitVec 16} (h : keys ≠ 0) : ∃ j, leastKey keys = some j :=
  Option.ne_none_iff_exists'.1 (mt (leastKey_none_iff keys).1 h)

/-- The poll finds a pressed key below which none is pressed: two such keys would each lie below the other (R183). -/
theorem leastKey_eq_some_of_least {keys : BitVec 16} {k : Nat} (hk : keys.getLsbD k = true)
    (hleast : ∀ i, i < k → keys.getLsbD i = false) : leastKey keys = some k := by
  have hkeys : keys ≠ 0 := by
    rintro rfl
    simp at hk
  obtain ⟨j, hj⟩ := exists_leastKey_eq_some hkeys
  obtain ⟨-, hpressed, hbelow⟩ := leastKey_some hj
  rcases Nat.lt_trichotomy j k with h | rfl | h
  · simp [hleast j h] at hpressed
  · exact hj
  · simp [hbelow k h] at hk

/-- `FX0A` with no key down (R183). -/
theorem exec_ldVxK_waiting {s : State} (x : Reg) (h : s.port.keys = 0) : exec (.ldVxK x) s = waiting s := by
  simp only [exec, execLdVxK, (leastKey_none_iff _).2 h]

/-- `FX0A` with a key down writes the number of the key found (R183). -/
theorem exec_ldVxK_some {s : State} {k : Nat} (x : Reg) (h : leastKey s.port.keys = some k) :
    exec (.ldVxK x) s = normal (advance (writeV s x (BitVec.ofNat 8 k))) := by
  simp only [exec, execLdVxK, h]

/-- Settles O36: the poll finds the least pressed key, whose number is one register's new value. -/
theorem waitForKeyTakesLeastKey : Obligations.WaitForKeyTakesLeastKey := by
  refine ⟨fun w hw => decode_of_onRow (.ldVxK 0) hw, fun x s h => exec_ldVxK_waiting x h, fun x k s hk hleast => ?_,
    fun s h => ?_⟩
  · rw [exec_ldVxK_some x (leastKey_eq_some_of_least hk hleast)]
    have hnumber : (BitVec.ofNat 8 k.val).toNat = k.val := Nat.mod_eq_of_lt (by omega)
    exact normal_writeV_of (P := fun b => b.toNat = k.val) hnumber
  · obtain ⟨j, hj⟩ := exists_leastKey_eq_some h
    obtain ⟨hlt, hpressed, hbelow⟩ := leastKey_some hj
    exact ⟨⟨j, hlt⟩, hpressed, hbelow⟩

/-! ## Timers -/

/-- Settles O37: the write takes the value of `DT`, which only the tick behind it lowers. -/
theorem readDelayTimerBeforeTick : Obligations.ReadDelayTimerBeforeTick := by
  refine ⟨fun w hw => decode_of_onRow (.ldVxDT 0) hw, fun x s => ?_⟩
  obtain ⟨t, ht, hV, hpc, hout, hframe, hmem⟩ := normal_writeV s x s.DT
  refine ⟨t, ht, hV, hpc, hout, ⟨hframe, hmem⟩, fun hs => ?_⟩
  have hDT : t.DT = s.DT := by rw [hframe]
  have hlive : t.halted = false := by rw [hframe, hs]
  obtain ⟨htick, -⟩ := endCycle_timers hlive
  exact ⟨by simp [hV], by rw [htick, hDT]⟩

/-- Settles O38: the tick takes the value just written one lower. -/
theorem setDelayTimer : Obligations.SetDelayTimer := by
  refine ⟨fun w hw => decode_of_onRow (.ldDTVx 0) hw, fun x s => ⟨_, rfl, rfl, rfl, rfl, ⟨rfl, fun _ => rfl⟩, fun hs => ?_⟩⟩
  obtain ⟨htick, -⟩ := endCycle_timers (u := latch (advance (setDT s s.V[x])) .completed none false) hs
  exact htick

/-- Settles O39: the tick takes the value just written one lower, and beeps when that was 1. -/
theorem setSoundTimer : Obligations.SetSoundTimer := by
  refine ⟨fun w hw => decode_of_onRow (.ldSTVx 0) hw, fun x s => ⟨_, rfl, rfl, rfl, rfl, ⟨rfl, fun _ => rfl⟩, fun hs => ?_⟩⟩
  obtain ⟨-, htick⟩ := endCycle_timers (u := latch (advance (setST s s.V[x])) .completed none false) hs
  exact htick

end Sys2Proof.Machine
end

section
/-! PROOFS. The reset and hazards family: `reset()` from any state (R230), loading a program (R201, R232), and the parked machine (R247). -/

namespace Sys2Proof.Machine

/-! ## Reset -/

/-- Settles O51: `hostReset` is defined as the reset state with the inputs kept. -/
theorem hostResetReachesTheResetState : Obligations.HostResetReachesTheResetState :=
  fun _ _ => rfl

/-! ## Loading a program -/

/-- An image longer than `PROG_MAX` is refused (R201). -/
theorem loadProgram_tooLarge {l : List Byte} (s : State) (h : Config.progMax < l.length) :
    loadProgram l s = .fault (.programTooLarge l.length) :=
  if_pos h

/-- An image that fits is stored from `PROG_BASE` up (R232). -/
theorem loadProgram_fits {l : List Byte} (s : State) (h : l.length ≤ Config.progMax) :
    loadProgram l s = .next (storeBytes s Config.progBase l) :=
  if_neg (Nat.not_lt.mpr h)

/-- The program area ends where memory ends: an image that fits lies within 0..4095 (R8). -/
theorem progBase_add_length_le {l : List Byte} (h : l.length ≤ Config.progMax) :
    Config.progBase + l.length ≤ Config.memSize :=
  Nat.add_le_add_left h Config.progBase

/-- Settles O52: a load that fits is one run of stores within memory, read back byte by byte. -/
theorem loadProgramCopiesTheImage : Obligations.LoadProgramCopiesTheImage := by
  refine ⟨fun l s h => loadProgram_tooLarge s h,
    fun l s hm hl => ⟨_, loadProgram_fits s hl, rfl, fun i hi => ?_, fun a ha => memRead_memWriteList_outside l hm ha⟩⟩
  have hread : memRead (memWriteList s.mem Config.progBase l) (Config.progBase + i) = l[i] :=
    memRead_memWriteList_inside l hm hi (progBase_add_length_le hl)
  exact (List.getElem?_eq_getElem hi).trans (congrArg some hread.symm)

/-! ## The parked machine -/

/-- The end of a cycle writes neither memory nor `pc`, all that a fetch reads. -/
@[simp] theorem fetch_endCycle (u : State) : fetch (endCycle u) = fetch u := by
  simp only [fetch, endCycle_mem, endCycle_pc]

@[simp] theorem parked_endCycle (u : State) : Parked (endCycle u) ↔ Parked u := by
  simp only [Parked, endCycle_halted, endCycle_pc, fetch_endCycle]

/-- The execute phase of a jump to itself changes nothing but the outputs (R112). -/
theorem exec_jp_self {s : State} {nnn : Addr12} (h : s.pc = addrOf nnn) : exec (.jp nnn) s = normal s := by
  have hself : setPc s (addrOf nnn) = s := by rw [← h, setPc]
  rw [exec, execJp, hself]

/-- The cycle of a parked machine: nothing but the end of the cycle (R247 (b)). -/
theorem step_parked {s : State} (h : Parked s) : step s = .next (endCycle (latch s .completed none false)) := by
  obtain ⟨hlive, nnn, hpc, hfetch⟩ := h
  exact step_decoded hlive hfetch (decodeOfEncodeIsTheInstruction (.jp nnn)) (exec_jp_self hpc)

/-- With both timers 0 the tick leaves them 0 and does not beep (R100, R101). -/
theorem endCycle_timers_zero {u : State} (hlive : u.halted = false) (hDT : u.DT = 0) (hST : u.ST = 0) :
    (endCycle u).DT = 0 ∧ (endCycle u).ST = 0 ∧ (endCycle u).out = { u.out with beep := false } := by
  simp [endCycle_live hlive, hDT, hST, countDown]

/-- Settles O59: the cycle is the tick and the host's turn, neither of which moves what the next fetch reads. -/
theorem parkedMachineStaysParked : Obligations.ParkedMachineStaysParked := by
  intro s h
  have hlive : (latch s .completed none false).halted = false := h.1
  exact ⟨_, step_parked h, (parked_endCycle _).mpr h, inputsPresented_endCycle_live hlive, endCycle_timers_zero hlive⟩

end Sys2Proof.Machine
end

section
/-! PROOFS. The reported mark: the model's own sticky record that some cycle since reset has output an event (log entry 4, U1). -/

namespace Sys2Proof.Machine

/-- `t` bears the mark exactly when `s` bore it or `t` outputs an event. -/
def KeepsMark (s t : State) : Prop := t.reported = true ↔ s.reported = true ∨ t.out.event ≠ none

/-- Without an event the mark stays as it was. -/
theorem KeepsMark.of_no_event {s t : State} (hevent : t.out.event = none) (hmark : t.reported = s.reported) :
    KeepsMark s t := by
  simp [KeepsMark, hevent, hmark]

/-- Every error, fatal or reported, outputs its event and sets the mark. -/
theorem keepsMark_raiseError (e : Event) (s : State) : KeepsMark s (raiseError e s) := by
  obtain ⟨hevent, -⟩ := raiseError_out e s
  have hmark : (raiseError e s).reported = true := by cases e <;> rfl
  exact iff_of_true hmark (.inr (by simp [hevent]))

/-- Of the ways of R94 only an error outputs an event, and only an error writes the mark. -/
theorem exec_keepsMark {i : Instr} {s u : State} (h : exec i s = .next u) : KeepsMark s u := by
  rcases exec_ends h with ⟨d, -, hout, -, hmark, -⟩ | ⟨-, rfl⟩ | ⟨-, e, rfl⟩
  · exact .of_no_event (by rw [hout]; rfl) hmark
  · exact .of_no_event rfl rfl
  · exact keepsMark_raiseError e s

/-- The end of a cycle writes neither the event nor the mark. -/
theorem KeepsMark.endCycle {s u : State} (h : KeepsMark s u) : KeepsMark s (endCycle u) := by
  obtain ⟨hevent, -⟩ := endCycle_out u
  rwa [KeepsMark, endCycle_reported, hevent]

/-- Settles O49: a halted cycle outputs no event; a live one raises an error or ends an execute phase. -/
theorem reportedMarkIsSticky : Obligations.ReportedMarkIsSticky := by
  intro s t h
  cases hs : s.halted with
  | true =>
    cases eq_haltedCycle_of_step hs h
    exact KeepsMark.of_no_event (by simp [haltedCycle]) (by simp [haltedCycle])
  | false =>
    rcases step_live_cases hs h with ⟨-, e, rfl⟩ | ⟨i, u, -, hx, rfl⟩
    · exact (keepsMark_raiseError e s).endCycle
    · exact (exec_keepsMark hx).endCycle

end Sys2Proof.Machine
end
